-- ==== Sys2Proof/Word.lean ====
section
/-! DEFINITION. The value types of the spec's notation (spec/00_scope.md rule R11): a byte, the
16-bit length value, and the 64-bit header word that the opcode table matches on (rule R66). -/

namespace Sys2Proof

/-- Rule R11: an unsigned 8-bit value; bit 7 is the most significant. -/
abbrev Byte := BitVec 8

/-- Rules R11 and R60: the 16-bit unsigned value of the `payloadLength` field. -/
abbrev Len := BitVec 16

/-- Rule R66: the 64-bit header word `H`, a notation of the opcode table, not a register. -/
abbrev HeaderWord := BitVec 64

end Sys2Proof
end

