-- ==== Sys2Proof/Machine/Integrity.lean ====
section
/-! DEFINITION. XOR_FOLD, the integrity function (spec/40_encoder.md rule R90). -/

namespace Sys2Proof.Machine

/-- Rule R90: the XOR of all bytes of `bytes`, an 8-bit accumulator that starts at `0x00`. -/
def xorFold (bytes : List Byte) : Byte :=
  bytes.foldl (fun acc b => acc ^^^ b) 0x00

end Sys2Proof.Machine
end

