-- ==== Sys2Proof/Config.lean ====
section
/-! DEFINITION. The constants of spec/00_scope.md rules R8 and R9. None of them changes while the
block runs. The capacity `RB_CAP` is a parameter of a model instance (rule R9): it is carried by
`Machine.State.rbCap`, and only its recommended value stands here. -/

namespace Sys2Proof.Config

/-- Rule R8, `MAGIC`: the first byte of every wire frame. -/
def magic : Byte := 0xDA

/-- Rule R8, `HDR_LEN`: the header's size in bytes. -/
def hdrLen : Nat := 8

/-- Rule R8, `MAX_PAYLOAD`: the largest value of the 16-bit length field. -/
def maxPayload : Nat := 65535

/-- Rule R8, `MAX_FRAME = HDR_LEN + MAX_PAYLOAD`. -/
def maxFrame : Nat := 65543

/-- Rule R8, `EMPTY_SUB`: what the encoder sends in place of an empty payload. -/
def emptySub : List Byte := [0x00]

/-- Rule R8, `PARAMS_DEFAULT`: either default params byte. -/
def paramDefault : Byte := 0x00

/-- Rule R9: the recommended `RB_CAP`, the least value at which the cap never fires.
DESIGN CHOICE (log entry 1): the parameter is open (decision D5) and this is its value in
`Machine.State.reset`. Unsafe: a claim about `reset` alone is about this instance. -/
def recommendedRbCap : Nat := 65543

end Sys2Proof.Config
end

