-- ==== Sys2Proof/Machine/Operands.lean ====
section
/-! DEFINITION. Operand forms: byte-sequence access (spec/00_scope.md rules R12 and R13), the
little-endian length field (spec/30_encoding.md rule R62), the wire frame's layout (rule R60) and
the header word of the opcode table (rule R66). -/

namespace Sys2Proof.Machine

/-- Rule R12, `xs[i]`. The spec reads an index only where it exists; the `0` beyond the end is
never read by an operation (each reads index `i` only once the length is checked). -/
def byteAt (xs : List Byte) (i : Nat) : Byte := xs.getD i 0

/-- Rule R12, the half-open slice `xs[i:j]`. -/
def slice (xs : List Byte) (i j : Nat) : List Byte := (xs.take j).drop i

/-- Rule R62: `len_lo = N[7:0]`. -/
def lenLo (n : Len) : Byte := n.extractLsb' 0 8

/-- Rule R62: `len_hi = N[15:8]`. -/
def lenHi (n : Len) : Byte := n.extractLsb' 8 8

/-- Rule R62: `N = zext_16(lo) | (zext_16(hi) << 8)`. -/
def lenOf (lo hi : Byte) : Len := lo.setWidth 16 ||| (hi.setWidth 16 <<< 8)

/-- Rules R40 and R62: the length declared by a sequence that starts with a header. -/
def declaredLen (s : List Byte) : Len := lenOf (byteAt s 1) (byteAt s 2)

/-- Rule R60: the bytes of a frame, `[0xDA][len_lo][len_hi][model][cmd][p0][p1][chk][payload]`. -/
def wireBytes (len : Len) (model cmd p0 p1 chk : Byte) (payload : List Byte) : List Byte :=
  [Config.magic, lenLo len, lenHi len, model, cmd, p0, p1, chk] ++ payload

/-- Rule R62: the length field's value for a payload of at most 65535 bytes. -/
def payloadLen (payload : List Byte) : Len := BitVec.ofNat 16 payload.length

/-- Rule R66: `H[8k+7 : 8k] = w[k]` for `k = 0..7`. -/
def headerWord (w : List Byte) : HeaderWord :=
  byteAt w 7 ++ byteAt w 6 ++ byteAt w 5 ++ byteAt w 4 ++
    byteAt w 3 ++ byteAt w 2 ++ byteAt w 1 ++ byteAt w 0

/-- The first `n` elements and the rest, or `none` where there are fewer than `n`. -/
def splitExact : Nat → List Byte → Option (List Byte × List Byte)
  | 0, bs => some ([], bs)
  | _ + 1, [] => none
  | n + 1, b :: bs => (splitExact n bs).map fun p => (b :: p.1, p.2)

/-- `xs`, followed by zero bytes up to a length of `n` where it is shorter. -/
def padTo : Nat → List Byte → List Byte
  | 0, xs => xs
  | n + 1, [] => 0 :: padTo n []
  | n + 1, x :: xs => x :: padTo n xs

end Sys2Proof.Machine
end

