-- ==== Sys2Proof/Machine/State.lean ====
section
/-! DEFINITION. The records of the spec (rules R14, R73 and R74), the machine's state and its value
after reset (spec/10_state.md rules R25 and R33; spec/00_scope.md rule R19), and the reasons for
which a step stops. -/

namespace Sys2Proof.Machine

/-- Rules R14 and R73: the frame record handed to the frame consumer. -/
structure Frame where
  len : Len
  model : Byte
  cmd : Byte
  p0 : Byte
  p1 : Byte
  chk : Byte
  payload : List Byte
  deriving DecidableEq, Repr

/-- Rule R14: why a candidate is not a frame. -/
inductive Cause where
  | badMagic
  | badChecksum
  deriving DecidableEq, Repr

/-- Rule R14: the decode result. `resync cause` is `Resync(1, cause)`: the count of bytes to drop is
always 1 (rules R113 and R114). `decoded f n` is `Decoded(f, n)`. -/
inductive DecodeResult where
  | needMoreData
  | resync (cause : Cause)
  | decoded (f : Frame) (n : Nat)
  deriving DecidableEq, Repr

/-- Rule R140: what DECODE_STEP answers to DRAIN. -/
inductive StepSignal where
  | done
  | more
  deriving DecidableEq, Repr

/-- Rule R74: a diagnostic event. There is no constructor for code 0 or codes 4 to 7 (I8). -/
inductive DiagEvent where
  /-- Code 1: the dropped head byte. -/
  | badMagic (b : Byte)
  /-- Code 2: the candidate's checksum byte and its computed fold. -/
  | badChecksum (chk fold : Byte)
  /-- Code 3: how many bytes the overflow policy discarded. -/
  | overflow (k : Nat)
  deriving DecidableEq, Repr

/-- One emission of the receive path. FO and DIAG share one list because their emissions have one
order (rule R51); each history is a view of it (`State.fo`, `State.diag` in Machine/Ops.lean). -/
inductive RxOut where
  | frame (f : Frame)
  | diag (e : DiagEvent)
  deriving DecidableEq, Repr

/-- The value returned by an internal procedure that was performed by itself (log entry 4). -/
inductive ProcResult where
  /-- XOR_FOLD's byte (rule R90). -/
  | fold (b : Byte)
  /-- TRY_DECODE_ONE's classification (rule R110). -/
  | decodeResult (r : DecodeResult)
  /-- DECODE_STEP's DONE or MORE (rule R140). -/
  | signal (g : StepSignal)
  deriving DecidableEq, Repr

/-- Who performs the listing's operations (rule R71, log entry 4). -/
inductive Invoker where
  /-- The environment: RESET, RX_PUSH and ENCODE, and the wire-frame rows made of them. -/
  | environment
  /-- A test of one procedure: rule R71 lists the internal operations because they are "separately
  specified and tested". -/
  | procedureTest
  deriving DecidableEq, Repr

/-- The machine. `rb` is the spec's one piece of state (rule R25); `rbCap` is the instance's
parameter (rule R9); `rxOut` and `tx` are the output histories the model records for observation
(rules R19 and R30); `listing`, `returned` and
`invoker` are the model's own (log entries 3 and 4). -/
structure State where
  /-- `RB`, rule R25: index 0 is the head and the earliest byte. -/
  rb : List Byte
  /-- `RB_CAP`, rule R9: fixed when the block is instantiated (rule R23); no operation writes it. -/
  rbCap : Nat
  /-- The `FO` and `DIAG` emissions in order, oldest first (rules R30 and R51). -/
  rxOut : List RxOut
  /-- The `TX` bytes in order, oldest first (rules R30 and R53). -/
  tx : List Byte
  /-- The invoker's operations still to be performed, in the listing form of rule R88. -/
  listing : List Byte
  /-- The result of the internal procedure last performed by itself; no operation reads it. -/
  returned : Option ProcResult
  /-- Who performs the listing: fixed for a run; no operation reads or writes it. -/
  invoker : Invoker
  deriving DecidableEq, Repr

/-- Rule R170: the block has no exception, trap or fatal state, so there is no fault. -/
inductive Fault where
  deriving DecidableEq, Repr

/-- The requests to which the model gives no meaning (rule R13, `refuse(reason)`). Each is safe: it
errs toward unprovable. -/
inductive Refusal where
  /-- Raised by no arm of `exec`: every operation has its meaning. Safe. -/
  | notModelled (mnemonic : String)
  /-- Raised by an encode request, or a received wire frame, whose payload the 16-bit length field
  cannot count (rule R95, `PAYLOAD_TOO_LONG`; rule R61). Safe. -/
  | payloadTooLong
  /-- Raised by `step` on operation id 7 (rule R75, `UNDEFINED_OP`). Safe. -/
  | undefinedOp
  /-- Raised by `step` on an internal operation in the environment's listing (rule R71: "The
  environment cannot invoke them directly."). Safe. -/
  | internalOperation
  /-- Raised by `step` on a listing byte that starts no operation (log entry 5). Safe. -/
  | notAnOperation
  /-- Raised by `step` on a listing that ends inside an operation (log entry 5). Safe. -/
  | truncatedListing
  deriving DecidableEq, Repr

/-- Rules R9 and R33: an instance of capacity `cap` at reset: `RB` and the histories are empty, and
the environment invokes what comes (rule R7). -/
def State.resetWith (cap : Nat) : State :=
  { rb := [], rbCap := cap, rxOut := [], tx := [], listing := [], returned := none,
    invoker := .environment }

/-- Rule R33 at the recommended capacity of rule R9 (log entry 1). -/
def State.reset : State := State.resetWith Config.recommendedRbCap

end Sys2Proof.Machine
end

