-- ==== Sys2Proof/Machine/Ops.lean ====
section
/-! DEFINITION. The named operations over the state: the primitives of rule R13, the histories of
rule R19, and the procedures of rules R93, R110, R140, R141, R144, R145 and R160, each said once.
Rule R170: there is no exception to take and none to return from; the nearest thing is
`decodeStep`'s recovery, which happens in place (rule R177). -/

namespace Sys2Proof.Machine

/-- Rule R13, `append(b)`. -/
def State.appendByte (s : State) (b : Byte) : State := { s with rb := s.rb ++ [b] }

/-- Rule R13, `consume(k)`. -/
def State.consume (s : State) (k : Nat) : State := { s with rb := s.rb.drop k }

/-- Rule R26 (c): set `RB` to `[]`. -/
def State.clearRb (s : State) : State := { s with rb := [] }

/-- Rule R13, `emit FO(f)`. -/
def State.emitFo (s : State) (f : Frame) : State := { s with rxOut := s.rxOut ++ [.frame f] }

/-- Rule R13, `emit DIAG(e)`. -/
def State.emitDiag (s : State) (e : DiagEvent) : State := { s with rxOut := s.rxOut ++ [.diag e] }

/-- Rules R13 and R53, `emit TX(bs)`: contiguous, in index order. -/
def State.emitTx (s : State) (bs : List Byte) : State := { s with tx := s.tx ++ bs }

/-- The observation of an internal procedure's result (log entry 4). -/
def State.setReturned (s : State) (r : ProcResult) : State := { s with returned := some r }

/-- The frame of an emission, where it is one. -/
def RxOut.frame? : RxOut → Option Frame
  | .frame f => some f
  | .diag _ => none

/-- The event of an emission, where it is one. -/
def RxOut.diag? : RxOut → Option DiagEvent
  | .frame _ => none
  | .diag e => some e

/-- Rule R19: the history of `FO` frames, in order. -/
def State.fo (s : State) : List Frame := s.rxOut.filterMap RxOut.frame?

/-- Rule R19: the history of `DIAG` events, in order. -/
def State.diag (s : State) : List DiagEvent := s.rxOut.filterMap RxOut.diag?

/-- Rule R74: the code of an event. -/
def DiagEvent.code : DiagEvent → Nat
  | .badMagic _ => 1
  | .badChecksum _ _ => 2
  | .overflow _ => 3

/-- Rule R13, `MemRead(addr, n)`: defined only where the slice lies inside `RB`. -/
def State.memRead (s : State) (addr n : Nat) : Option (List Byte) :=
  if addr + n ≤ s.rb.length then some (slice s.rb addr (addr + n)) else none

/-- Rule R94: the payload that is sent. -/
def substituteEmpty (payload : List Byte) : List Byte :=
  if payload = [] then Config.emptySub else payload

/-- Rule R93: the wire frame that ENCODE assembles. -/
def assembleFrame (model cmd p0 p1 : Byte) (payload : List Byte) : List Byte :=
  let pl := substituteEmpty payload
  wireBytes (payloadLen pl) model cmd p0 p1 (xorFold pl) pl

/-- Rules R93 and R95: refuse a payload that has no frame, or emit its frame on `TX`. -/
def encodeAndSend (model cmd p0 p1 : Byte) (payload : List Byte) (s : State) :
    Host.Outcome State Fault Refusal :=
  if Config.maxPayload < payload.length then .refused .payloadTooLong
  else .next (s.emitTx (assembleFrame model cmd p0 p1 payload))

/-- Rule R110: classify the front of `bytes`, in the check order of rule R111. -/
def classify (bytes : List Byte) : DecodeResult :=
  if bytes.length = 0 then .needMoreData
  else if byteAt bytes 0 ≠ Config.magic then .resync .badMagic
  else if bytes.length < Config.hdrLen then .needMoreData
  else
    let n := declaredLen bytes
    if bytes.length < Config.hdrLen + n.toNat then .needMoreData
    else
      let pl := slice bytes Config.hdrLen (Config.hdrLen + n.toNat)
      if byteAt bytes 7 ≠ xorFold pl then .resync .badChecksum
      else
        .decoded
          { len := n, model := byteAt bytes 3, cmd := byteAt bytes 4, p0 := byteAt bytes 5,
            p1 := byteAt bytes 6, chk := byteAt bytes 7, payload := pl }
          (Config.hdrLen + n.toNat)

/-- Rule R140: apply one decode result to `RB`, and say whether DRAIN goes on. -/
def applyDecode (s : State) : StepSignal × State :=
  match classify s.rb with
  | .needMoreData => (.done, s)
  | .resync .badMagic => (.more, (s.emitDiag (.badMagic (byteAt s.rb 0))).consume 1)
  | .resync .badChecksum =>
    let n := (declaredLen s.rb).toNat
    let fold := xorFold (slice s.rb Config.hdrLen (Config.hdrLen + n))
    (.more, (s.emitDiag (.badChecksum (byteAt s.rb 7) fold)).consume 1)
  | .decoded f n => (.more, (s.consume n).emitFo f)

/-- Rule R141's loop, cut off after `fuel` calls. -/
def drainLoop : Nat → State → State
  | 0, s => s
  | fuel + 1, s =>
    match applyDecode s with
    | (.done, t) => t
    | (.more, t) => drainLoop fuel t

/-- Rule R141: repeat DECODE_STEP until it answers DONE. By rule R142, `|RB| + 1` calls suffice, so
the cut-off of `drainLoop` is never what ends it. -/
def drainAll (s : State) : State := drainLoop (s.rb.length + 1) s

/-- Rule R150, steps 1 and 2: the overflow policy, before an arriving byte is appended. -/
def makeRoom (s : State) : State :=
  if s.rb.length = s.rbCap then (s.emitDiag (.overflow s.rbCap)).clearRb else s

/-- Rule R144: receive one byte. -/
def receiveByte (b : Byte) (s : State) : State := drainAll ((makeRoom s).appendByte b)

/-- Rule R145: the chunk `bs` is one RX_PUSH per byte, in order, with nothing in between. -/
def receiveChunk (bs : List Byte) (s : State) : State := bs.foldl (fun t b => receiveByte b t) s

/-- A wire frame arrives on RX: the chunk of its bytes (rules R60, R84 and R145). Bytes with a
payload that the length field cannot count are no wire frame (rule R61). -/
def receiveFrame (model cmd p0 p1 chk : Byte) (payload : List Byte) (s : State) :
    Host.Outcome State Fault Refusal :=
  if Config.maxPayload < payload.length then .refused .payloadTooLong
  else .next (receiveChunk (wireBytes (payloadLen payload) model cmd p0 p1 chk payload) s)

/-- Rule R160: `RB <- []`, and nothing else. -/
def resetBlock (s : State) : State := s.clearRb

end Sys2Proof.Machine
end

