-- ==== Sys2Proof/Machine/Codec.lean ====
section
/-! DEFINITION. The frame codec's operations: ENCODE, XOR_FOLD and TRY_DECODE_ONE
(spec/40_encoder.md, spec/41_decoder.md). -/

namespace Sys2Proof.Machine

/-- ENCODE, rule R93. -/
def execEncode (model cmd p0 p1 : Byte) (payload : List Byte) (s : State) :
    Host.Outcome State Fault Refusal :=
  encodeAndSend model cmd p0 p1 payload s

/-- XOR_FOLD, rule R90: pure; its result is observed (log entry 4). -/
def execXorFold (bytes : List Byte) (s : State) : Host.Outcome State Fault Refusal :=
  .next (s.setReturned (.fold (xorFold bytes)))

/-- TRY_DECODE_ONE, rule R110: pure; its result is observed (log entry 4). -/
def execTryDecodeOne (bytes : List Byte) (s : State) : Host.Outcome State Fault Refusal :=
  .next (s.setReturned (.decodeResult (classify bytes)))

end Sys2Proof.Machine
end

