-- ==== Sys2Proof/Machine/Reassembly.lean ====
section
/-! DEFINITION. The reassembly buffer's operations: DECODE_STEP, DRAIN, RX_PUSH and RESET
(spec/42_reassembly.md). -/

namespace Sys2Proof.Machine

/-- DECODE_STEP, rule R140; its DONE or MORE is observed (log entry 4). -/
def execDecodeStep (s : State) : Host.Outcome State Fault Refusal :=
  .next ((applyDecode s).2.setReturned (.signal (applyDecode s).1))

/-- DRAIN, rule R141. It returns no value. -/
def execDrain (s : State) : Host.Outcome State Fault Refusal := .next (drainAll s)

/-- RX_PUSH, rule R144. -/
def execRxPush (b : Byte) (s : State) : Host.Outcome State Fault Refusal := .next (receiveByte b s)

/-- RESET, rule R160. -/
def execReset (s : State) : Host.Outcome State Fault Refusal := .next (resetBlock s)

end Sys2Proof.Machine
end

