-- ==== Sys2Proof/Machine/WireFrames.lean ====
section
/-! DEFINITION. The wire-frame rows of the opcode table (rule R70). The rows that travel host to
device are the ENCODE requests of rules R76 to R78; the rows that travel device to host, and the
generic FRAME, arrive on RX (rule R84; log entry 7). -/

namespace Sys2Proof.Machine

/-- FRAME, rules R60 and R110: any frame, received; with a wrong checksum, rule R114. -/
def execFrame (model cmd p0 p1 chk : Byte) (payload : List Byte) (s : State) :
    Host.Outcome State Fault Refusal :=
  receiveFrame model cmd p0 p1 chk payload s

/-- STREAM_ENABLE, rule R76. -/
def execStreamEnable (p0 p1 : Byte) (s : State) : Host.Outcome State Fault Refusal :=
  encodeAndSend 0x04 0x05 p0 p1 [0x00] s

/-- STREAM_DISABLE, rule R77. -/
def execStreamDisable (p0 p1 : Byte) (s : State) : Host.Outcome State Fault Refusal :=
  encodeAndSend 0x04 0x05 p0 p1 [0x01] s

/-- IDENTITY_REQUEST, rule R78: an empty payload, which rule R94 substitutes. -/
def execIdentityRequest (p0 p1 : Byte) (s : State) : Host.Outcome State Fault Refusal :=
  encodeAndSend 0x01 0x04 p0 p1 [] s

/-- TELEMETRY_REPORT, rule R79: received. -/
def execTelemetryReport (p0 p1 chk : Byte) (payload : List Byte) (s : State) :
    Host.Outcome State Fault Refusal :=
  receiveFrame 0x04 0x05 p0 p1 chk payload s

/-- IDENTITY_RESPONSE, rule R81: received. -/
def execIdentityResponse (cmd p0 p1 chk : Byte) (payload : List Byte) (s : State) :
    Host.Outcome State Fault Refusal :=
  receiveFrame 0x01 cmd p0 p1 chk payload s

end Sys2Proof.Machine
end

