-- ==== Sys2Proof/Syntax.lean ====
section
/-! DEFINITION. The operations: one constructor for each row of spec/opcode_table.json. The six
wire-frame rows are rule R70's, the seven operation rows rule R71's; operands are rule R72's and,
for a wire frame, the header fields its row leaves open (rule R66). -/

namespace Sys2Proof

inductive Instr where
  /-- FRAME (rules R60, R110): a wire frame with no row of its own, or a complete candidate with a
  wrong checksum (rule R68 (b)). It arrives on RX. -/
  | frame (model cmd p0 p1 chk : Byte) (payload : List Byte)
  /-- STREAM_ENABLE (rule R76): ENCODE of `(0x04, 0x05)` with payload `[0x00]`. -/
  | streamEnable (p0 p1 : Byte)
  /-- STREAM_DISABLE (rule R77): ENCODE of `(0x04, 0x05)` with payload `[0x01]`. -/
  | streamDisable (p0 p1 : Byte)
  /-- IDENTITY_REQUEST (rule R78): ENCODE of `(0x01, 0x04)` with an empty payload. -/
  | identityRequest (p0 p1 : Byte)
  /-- TELEMETRY_REPORT (rule R79): a received `(0x04, 0x05)` frame with 8 payload bytes. -/
  | telemetryReport (p0 p1 chk : Byte) (payload : List Byte)
  /-- IDENTITY_RESPONSE (rule R81): a received frame of model `0x01` with 64 or more payload bytes. -/
  | identityResponse (cmd p0 p1 chk : Byte) (payload : List Byte)
  /-- RESET, operation id 0 (rule R160). -/
  | reset
  /-- RX_PUSH, operation id 1 (rule R144): receive one byte. -/
  | rxPush (b : Byte)
  /-- ENCODE, operation id 2 (rule R93): assemble and send one frame. -/
  | encode (model cmd p0 p1 : Byte) (payload : List Byte)
  /-- XOR_FOLD, operation id 3 (rule R90), internal. -/
  | xorFold (bytes : List Byte)
  /-- TRY_DECODE_ONE, operation id 4 (rule R110), internal. -/
  | tryDecodeOne (bytes : List Byte)
  /-- DECODE_STEP, operation id 5 (rule R140), internal. -/
  | decodeStep
  /-- DRAIN, operation id 6 (rule R141), internal. -/
  | drain
  deriving DecidableEq, Repr

/-- Why the front of a listing is not an operation (log entry 5). -/
inductive ListingError where
  /-- Operation id 7 names no operation (rule R75, `UNDEFINED_OP`). -/
  | undefinedOp
  /-- The first byte is neither an operation id `0 .. 7` nor the magic byte `0xDA`. -/
  | notAnOperation
  /-- The listing ends before the operation's operands do. -/
  | truncated
  deriving DecidableEq, Repr

end Sys2Proof
end

