-- ==== Sys2Proof/Machine/Dispatch.lean ====
section
/-! DEFINITION. One arm per operation, each a call of its own meaning. -/

namespace Sys2Proof.Machine

def exec (i : Instr) (s : State) : Host.Outcome State Fault Refusal :=
  match i with
  | .frame model cmd p0 p1 chk payload => Sys2Proof.Machine.execFrame model cmd p0 p1 chk payload s
  | .streamEnable p0 p1 => Sys2Proof.Machine.execStreamEnable p0 p1 s
  | .streamDisable p0 p1 => Sys2Proof.Machine.execStreamDisable p0 p1 s
  | .identityRequest p0 p1 => Sys2Proof.Machine.execIdentityRequest p0 p1 s
  | .telemetryReport p0 p1 chk payload => Sys2Proof.Machine.execTelemetryReport p0 p1 chk payload s
  | .identityResponse cmd p0 p1 chk payload => Sys2Proof.Machine.execIdentityResponse cmd p0 p1 chk payload s
  | .reset => Sys2Proof.Machine.execReset s
  | .rxPush b => Sys2Proof.Machine.execRxPush b s
  | .encode model cmd p0 p1 payload => Sys2Proof.Machine.execEncode model cmd p0 p1 payload s
  | .xorFold bytes => Sys2Proof.Machine.execXorFold bytes s
  | .tryDecodeOne bytes => Sys2Proof.Machine.execTryDecodeOne bytes s
  | .decodeStep => Sys2Proof.Machine.execDecodeStep s
  | .drain => Sys2Proof.Machine.execDrain s

end Sys2Proof.Machine
end

