-- ==== Sys2Proof/WellFormed.lean ====
section
/-! DEFINITION. Well-formed operations: the operand bounds of rule R72 and the constraints that the
opcode table writes beside its masks (rules R66 and R70). -/

namespace Sys2Proof

/-- Rule R70: the operands of a generic frame that another row describes: rows STREAM_ENABLE and
STREAM_DISABLE, IDENTITY_REQUEST, TELEMETRY_REPORT, IDENTITY_RESPONSE. -/
def hasOwnRow (model cmd : Byte) (payload : List Byte) : Bool :=
  (model == 0x04 && cmd == 0x05 && (payload == [0x00] || payload == [0x01] || payload.length == 8))
  || (model == 0x01 && cmd == 0x04 && payload == [0x00])
  || (model == 0x01 && decide (64 ≤ payload.length))

/-- Rule R61: a payload that the 16-bit length field can count. -/
def fitsLength (payload : List Byte) : Bool := decide (payload.length ≤ Config.maxPayload)

/-- The operations the opcode table admits. The two internal operations with a byte-sequence
operand are bounded by their listing form (log entry 6). -/
def Instr.wf : Instr → Bool
  | .frame model cmd _ _ chk payload =>
      fitsLength payload && chk == Machine.xorFold payload && !hasOwnRow model cmd payload
  | .streamEnable _ _ => true
  | .streamDisable _ _ => true
  | .identityRequest _ _ => true
  | .telemetryReport _ _ chk payload => payload.length == 8 && chk == Machine.xorFold payload
  | .identityResponse _ _ _ chk payload =>
      decide (64 ≤ payload.length) && fitsLength payload && chk == Machine.xorFold payload
  | .reset => true
  | .rxPush _ => true
  | .encode _ _ _ _ payload => fitsLength payload
  | .xorFold bytes => fitsLength bytes
  | .tryDecodeOne bytes => decide (bytes.length < 2 ^ 24)
  | .decodeStep => true
  | .drain => true

/-- Rule R68 (b): a complete candidate with a wrong checksum. It is not a frame, so it meets no row's
constraint; received, it is recovered inline like any other noise (rules R114 and R170). -/
def Instr.corruptFrame : Instr → Bool
  | .frame _ _ _ _ chk payload => fitsLength payload && chk != Machine.xorFold payload
  | _ => false

/-- What a listing can hold: an operation the opcode table admits, or a corrupt candidate. -/
def Instr.listable (i : Instr) : Bool := i.wf || i.corruptFrame

end Sys2Proof
end

