-- ==== Sys2Proof/Decode.lean ====
section
/-! DEFINITION. The decoder and the encoder of operations. RESET, RX_PUSH and ENCODE are written as
rule R88 writes them, a wire frame as rule R60 lays it out, and the internal operations in the
same style (log entry 6). The decoder is total and rejects by name. -/

namespace Sys2Proof

open Machine

/-- One row of the opcode table: a wire-frame row matches a header word `H` when
`(H & mask) = match` (rule R66). -/
structure TableRow where
  mnemonic : String
  pattern : HeaderWord
  mask : HeaderWord
  deriving DecidableEq, Repr

/-- Rule R70: the masks and patterns of the six wire-frame rows. -/
def wireFrameRows : List TableRow :=
  [ ⟨"FRAME",             0x00000000000000DA, 0x00000000000000FF⟩,
    ⟨"STREAM_ENABLE",     0x00000005040001DA, 0xFF0000FFFFFFFFFF⟩,
    ⟨"STREAM_DISABLE",    0x01000005040001DA, 0xFF0000FFFFFFFFFF⟩,
    ⟨"IDENTITY_REQUEST",  0x00000004010001DA, 0xFF0000FFFFFFFFFF⟩,
    ⟨"TELEMETRY_REPORT",  0x00000005040008DA, 0x000000FFFFFFFFFF⟩,
    ⟨"IDENTITY_RESPONSE", 0x00000000010000DA, 0x00000000FF0000FF⟩ ]

/-- Rule R66: does the row match this header word? -/
def TableRow.admits (r : TableRow) (h : HeaderWord) : Bool := (h &&& r.mask) == r.pattern

/-- Rule R70: the row of a valid frame; a frame that no other row describes is a FRAME. -/
def classifyFrame (model cmd p0 p1 chk : Byte) (payload : List Byte) : Instr :=
  if model = 0x04 ∧ cmd = 0x05 ∧ payload = [0x00] then .streamEnable p0 p1
  else if model = 0x04 ∧ cmd = 0x05 ∧ payload = [0x01] then .streamDisable p0 p1
  else if model = 0x01 ∧ cmd = 0x04 ∧ payload = [0x00] then .identityRequest p0 p1
  else if model = 0x04 ∧ cmd = 0x05 ∧ payload.length = 8 then .telemetryReport p0 p1 chk payload
  else if model = 0x01 ∧ 64 ≤ payload.length then .identityResponse cmd p0 p1 chk payload
  else .frame model cmd p0 p1 chk payload

/-- Rules R60, R63 and R70: a wire frame, its magic byte already read. A complete candidate with a
wrong checksum meets no row's constraint (rule R68 (b)); it is listed as the generic FRAME, so that
its bytes are received and recovered inline (rule R170). -/
def decodeWireFrame : List Byte → Except ListingError (Instr × List Byte)
  | lo :: hi :: model :: cmd :: p0 :: p1 :: chk :: body =>
    match splitExact (lenOf lo hi).toNat body with
    | none => .error .truncated
    | some (payload, rest) =>
      if chk = xorFold payload then .ok (classifyFrame model cmd p0 p1 chk payload, rest)
      else .ok (.frame model cmd p0 p1 chk payload, rest)
  | _ => .error .truncated

/-- Rule R88: `ENCODE` is `2 model cmd p0 p1 N[7:0] N[15:8] payload...`, its id already read. -/
def decodeEncode : List Byte → Except ListingError (Instr × List Byte)
  | model :: cmd :: p0 :: p1 :: lo :: hi :: body =>
    match splitExact (lenOf lo hi).toNat body with
    | none => .error .truncated
    | some (payload, rest) => .ok (.encode model cmd p0 p1 payload, rest)
  | _ => .error .truncated

/-- Rule R88: `RX_PUSH b` is `1 b`, its id already read. -/
def decodeRxPush : List Byte → Except ListingError (Instr × List Byte)
  | b :: rest => .ok (.rxPush b, rest)
  | [] => .error .truncated

/-- DESIGN CHOICE (log entry 6): XOR_FOLD's listing form, `3 N[7:0] N[15:8] bytes...`. -/
def decodeXorFold : List Byte → Except ListingError (Instr × List Byte)
  | lo :: hi :: body =>
    match splitExact (lenOf lo hi).toNat body with
    | none => .error .truncated
    | some (bytes, rest) => .ok (.xorFold bytes, rest)
  | _ => .error .truncated

/-- The value of a three-byte little-endian length (log entry 6). -/
def len24 (b0 b1 b2 : Byte) : Nat := b0.toNat + 256 * b1.toNat + 65536 * b2.toNat

/-- DESIGN CHOICE (log entry 6): TRY_DECODE_ONE's listing form, `4` and three length bytes, so that
a whole reassembly buffer of 65543 bytes can be written as its operand. -/
def decodeTryDecodeOne : List Byte → Except ListingError (Instr × List Byte)
  | b0 :: b1 :: b2 :: body =>
    match splitExact (len24 b0 b1 b2) body with
    | none => .error .truncated
    | some (bytes, rest) => .ok (.tryDecodeOne bytes, rest)
  | _ => .error .truncated

/-- The operation at the front of a listing, and the rest of the listing. The first byte is the
operation id of rule R71, or the magic byte of a wire frame (rule R60). -/
def decode : List Byte → Except ListingError (Instr × List Byte)
  | [] => .error .truncated
  | op :: rest =>
    if op = Config.magic then decodeWireFrame rest
    else if op = 0 then .ok (.reset, rest)
    else if op = 1 then decodeRxPush rest
    else if op = 2 then decodeEncode rest
    else if op = 3 then decodeXorFold rest
    else if op = 4 then decodeTryDecodeOne rest
    else if op = 5 then .ok (.decodeStep, rest)
    else if op = 6 then .ok (.drain, rest)
    else if op = 7 then .error .undefinedOp
    else .error .notAnOperation

/-- The listing bytes of an operation, from rules R60, R76 to R78 and R88 (log entry 6 for the
internal operations). `decode` reads them back where the operation is listable. -/
def encode : Instr → List Byte
  | .frame model cmd p0 p1 chk payload =>
      wireBytes (payloadLen payload) model cmd p0 p1 chk payload
  | .streamEnable p0 p1 => wireBytes 1 0x04 0x05 p0 p1 0x00 [0x00]
  | .streamDisable p0 p1 => wireBytes 1 0x04 0x05 p0 p1 0x01 [0x01]
  | .identityRequest p0 p1 => wireBytes 1 0x01 0x04 p0 p1 0x00 [0x00]
  | .telemetryReport p0 p1 chk payload =>
      wireBytes (payloadLen payload) 0x04 0x05 p0 p1 chk payload
  | .identityResponse cmd p0 p1 chk payload =>
      wireBytes (payloadLen payload) 0x01 cmd p0 p1 chk payload
  | .reset => [0]
  | .rxPush b => [1, b]
  | .encode model cmd p0 p1 payload =>
      [2, model, cmd, p0, p1, lenLo (payloadLen payload), lenHi (payloadLen payload)] ++ payload
  | .xorFold bytes => [3, lenLo (payloadLen bytes), lenHi (payloadLen bytes)] ++ bytes
  | .tryDecodeOne bytes =>
      [4, BitVec.ofNat 8 bytes.length, BitVec.ofNat 8 (bytes.length / 256),
        BitVec.ofNat 8 (bytes.length / 65536)] ++ bytes
  | .decodeStep => [5]
  | .drain => [6]

/-- How many bytes the operation at the front of a listing takes, read from its id and its length
field alone. -/
def fetchLength (bs : List Byte) : Nat :=
  let op := byteAt bs 0
  if op = Config.magic then Config.hdrLen + (declaredLen bs).toNat
  else if op = 1 then 2
  else if op = 2 then 7 + (lenOf (byteAt bs 5) (byteAt bs 6)).toNat
  else if op = 3 then 3 + (lenOf (byteAt bs 1) (byteAt bs 2)).toNat
  else if op = 4 then 4 + len24 (byteAt bs 1) (byteAt bs 2) (byteAt bs 3)
  else 1

/-- The low `k` bytes of a number, the least significant first (rule R66's numbering). -/
def wordBytes : Nat → Nat → List Byte
  | 0, _ => []
  | k + 1, w => BitVec.ofNat 8 w :: wordBytes k (w / 256)

/-- The listing bytes of a table word of `nbits` bits: its bytes in order, then zero bytes up to
the length of the operation they start. -/
def layoutWord (nbits w : Nat) : List Byte :=
  let bs := wordBytes ((nbits + 7) / 8) w
  padTo (fetchLength bs) bs

/-- The operation the decoder reads from a table word (the host's fixed name). -/
def decodeTableWord (nbits w : Nat) : Option Instr :=
  match decode (layoutWord nbits w) with
  | .ok (i, _) => some i
  | .error _ => none

end Sys2Proof
end

