-- ==== Sys2Proof/Machine/Listing.lean ====
section
/-! DEFINITION. Taking the next operation from the listing, and who may invoke it (rule R71, log
entries 3 to 5). -/

namespace Sys2Proof.Machine

/-- The refusal of a listing whose front is not an operation. -/
def refusalOf : ListingError → Refusal
  | .undefinedOp => .undefinedOp
  | .notAnOperation => .notAnOperation
  | .truncated => .truncatedListing

/-- The next operation, and the state in which it is performed: its bytes are taken off the
listing. -/
def fetch (s : State) : Except ListingError (Instr × State) :=
  match decode s.listing with
  | .ok (i, rest) => .ok (i, { s with listing := rest })
  | .error e => .error e

/-- Rule R71: the operations "invoked by" nobody: internal procedures, which only other operations
use. A wire-frame row is an ENCODE or a chunk of RX_PUSHes (log entry 7). -/
def isInternal : Instr → Bool
  | .frame _ _ _ _ _ _ => false
  | .streamEnable _ _ => false
  | .streamDisable _ _ => false
  | .identityRequest _ _ => false
  | .telemetryReport _ _ _ _ => false
  | .identityResponse _ _ _ _ _ => false
  | .reset => false
  | .rxPush _ => false
  | .encode _ _ _ _ _ => false
  | .xorFold _ => true
  | .tryDecodeOne _ => true
  | .decodeStep => true
  | .drain => true

/-- Rule R71: the environment cannot invoke an internal operation directly; a procedure's test can. -/
def mayInvoke (v : Invoker) (i : Instr) : Bool := v == .procedureTest || !isInternal i

/-- Who invokes the operation of a table word: a procedure's test where the row is internal (rule R71),
else whoever did before. -/
def invokerFor (v : Invoker) (nbits w : Nat) : Invoker :=
  match decodeTableWord nbits w with
  | some i => if isInternal i then .procedureTest else v
  | none => v

/-- Nothing is listed: the environment has requested nothing more (rules R185 and R201). -/
def idle (s : State) : Bool := s.listing.isEmpty

end Sys2Proof.Machine
end

