-- ==== Sys2Proof/Machine/Step.lean ====
section
/-! DEFINITION. One transition: the operation at the front of the listing is performed whole
(rules R6 and R46), if its invoker may (rule R71). With nothing listed the block is idle and holds its state (rule R185). -/

namespace Sys2Proof.Machine

def step (s : State) : Host.Outcome State Fault Refusal :=
  if idle s then .next s
  else
    match fetch s with
    | .ok (i, t) => if mayInvoke s.invoker i then exec i t else .refused .internalOperation
    | .error e => .refused (refusalOf e)

/-- The state with one table word listed as its only operation (log entry 3), invoked by one who may
(log entry 4). -/
def State.withFetchWord (s : State) (nbits w : Nat) : State :=
  { s with listing := layoutWord nbits w, invoker := invokerFor s.invoker nbits w }

end Sys2Proof.Machine
end

