-- ==== Sys2Proof/Machine/Programs.lean ====
section
/-! DEFINITION. Programs of operations: the notation of rule R86, the expansions of rule R87, the
listing of rule R88, and performing operations in order (rule R201). -/

namespace Sys2Proof.Machine

/-- Rules R86 and R87: one line of a program. `rx` has at least one byte (`RX b0 [, b1, ...]`). -/
inductive ProgramLine where
  | reset
  | rx (first : Byte) (more : List Byte)
  | enc (model cmd : Byte) (payload : List Byte)
  | encParams (model cmd p0 p1 : Byte) (payload : List Byte)
  | enableStream
  | disableStream
  | requestIdentity
  deriving DecidableEq, Repr

/-- Rule R87: the operations a line stands for. -/
def ProgramLine.expand : ProgramLine → List Instr
  | .reset => [.reset]
  | .rx first more => (first :: more).map .rxPush
  | .enc model cmd payload =>
      [.encode model cmd Config.paramDefault Config.paramDefault payload]
  | .encParams model cmd p0 p1 payload => [.encode model cmd p0 p1 payload]
  | .enableStream => [.encode 0x04 0x05 Config.paramDefault Config.paramDefault [0x00]]
  | .disableStream => [.encode 0x04 0x05 Config.paramDefault Config.paramDefault [0x01]]
  | .requestIdentity => [.encode 0x01 0x04 Config.paramDefault Config.paramDefault []]

/-- Rule R88: the listing of a sequence of operations. -/
def listingOf (ops : List Instr) : List Byte := ops.flatMap encode

/-- Rules R6 and R201: perform operations one after another, up to the first that is refused. -/
def perform : List Instr → State → Host.Outcome State Fault Refusal
  | [], s => .next s
  | i :: is, s =>
    match exec i s with
    | .next t => perform is t
    | .fault r => .fault r
    | .refused r => .refused r

end Sys2Proof.Machine
end

