-- ==== Sys2Proof/Safety.lean ====
section
/-! DEFINITION. The terms that claims about the machine use: the buffer's bound and its drained
shapes (rules R25, R27 and R28), DECODE_STEPs in sequence (rule R142), sound emissions (rules R14,
R73 and R74), and a reading of the received stream by its emissions (rules R147 and R148). -/

namespace Sys2Proof.Machine

/-- Rule R25: `0 <= |RB| <= RB_CAP`. The block has no addressed memory (rule R40), so this is the
whole well-formedness of its store; two stores are equal exactly when the lists are. -/
def State.bufferFits (s : State) : Bool := decide (s.rb.length ≤ s.rbCap)

/-- Rule R27: the decoder would wait for more bytes. -/
abbrev State.Drained (s : State) : Prop := classify s.rb = .needMoreData

/-- Rules R9, R25 and R27: what holds between any two transitions. -/
abbrev State.Inv (s : State) : Prop := 1 ≤ s.rbCap ∧ s.bufferFits = true ∧ s.Drained

/-- Rule R28: the three shapes of a drained buffer. -/
abbrev DrainedShape (rb : List Byte) : Prop :=
  rb = []
  ∨ (byteAt rb 0 = Config.magic ∧ 1 ≤ rb.length ∧ rb.length ≤ 7)
  ∨ (byteAt rb 0 = Config.magic ∧ 8 ≤ rb.length ∧ rb.length < 8 + (declaredLen rb).toNat)

/-- Rules R141 and R142: `t` is `s` after `k` DECODE_STEPs that each answered MORE. -/
def moreSteps : Nat → State → State → Prop
  | 0, s, t => t = s
  | k + 1, s, t => (applyDecode s).1 = .more ∧ moreSteps k (applyDecode s).2 t

/-- Rule R60: the wire bytes of a frame record. -/
def Frame.wire (f : Frame) : List Byte :=
  wireBytes f.len f.model f.cmd f.p0 f.p1 f.chk f.payload

/-- Rules R14 and R63: `|payload| = len`, and the frame is valid. -/
abbrev Frame.Sound (f : Frame) : Prop :=
  f.payload.length = f.len.toNat ∧ f.chk = xorFold f.payload

/-- Rules R14 and R74: what every emission of an instance of capacity `cap` satisfies. -/
def RxOut.Sound (cap : Nat) : RxOut → Prop
  | .frame f => f.Sound
  | .diag (.badMagic b) => b ≠ Config.magic
  | .diag (.badChecksum chk fold) => chk ≠ fold
  | .diag (.overflow k) => k = cap

/-- Rules R146 to R148: the emissions `outs`, in order, read the byte sequence `stream` from its
front and leave `rb`. A frame is the one that the decoder finds where the head then is, and takes
exactly its bytes; a resync takes exactly one byte, and its event shows what the decoder saw there;
an overflow takes the bytes it reports. -/
def reads : List RxOut → List Byte → List Byte → Prop
  | [], stream, rb => stream = rb
  | .frame f :: outs, stream, rb =>
      classify stream = .decoded f f.wire.length ∧ reads outs (stream.drop f.wire.length) rb
  | .diag (.badMagic b) :: outs, stream, rb =>
      classify stream = .resync .badMagic ∧ b = byteAt stream 0 ∧ reads outs (stream.drop 1) rb
  | .diag (.badChecksum chk fold) :: outs, stream, rb =>
      classify stream = .resync .badChecksum ∧ chk = byteAt stream 7 ∧
      fold = xorFold (slice stream 8 (8 + (declaredLen stream).toNat)) ∧
      reads outs (stream.drop 1) rb
  | .diag (.overflow k) :: outs, stream, rb =>
      k ≤ stream.length ∧ reads outs (stream.drop k) rb

/-- Rule R74, code 3: is the emission an overflow event? -/
def RxOut.isOverflow : RxOut → Bool
  | .diag (.overflow _) => true
  | _ => false

end Sys2Proof.Machine
end

