-- ==== Sys2Proof/Certificates/Slice0/Obligations.lean ====
section
/-! DEFINITION. The statements for the provers. Each docstring names the rule of spec/ it
formalises, or says what choice of the model it rests on. -/

open Sys2Proof Sys2Proof.Machine

/-! ### Reset -/

/-- 10_state.md section 4: at the start of a run of any capacity the buffer and the three histories
are empty, and so they are in the model's own reset state. -/
def Obligations.StartOfRunIsEmpty : Prop :=
  ∀ s : State, (s = State.reset ∨ ∃ cap, s = State.resetWith cap) →
    s.rb = [] ∧ s.fo = [] ∧ s.tx = [] ∧ s.diag = []

/-- Rule R160: RESET empties the buffer and does nothing else; on an empty buffer it changes
nothing; and its worked example. -/
def Obligations.ResetOnlyEmptiesTheBuffer : Prop :=
  (∀ s : State, exec .reset s = .next { s with rb := [] }) ∧
  (∀ s : State, s.rb = [] → exec .reset s = .next s) ∧
  (∀ s : State, s.rb = [0xDA, 0x01, 0x00] → 1 ≤ s.rbCap →
    perform [.reset, .rxPush 0x04, .rxPush 0x05] s = .next { s with
      rb := [], rxOut := s.rxOut ++ [.diag (.badMagic 0x04), .diag (.badMagic 0x05)] })

/-! ### The listing, the decoder and the encoder of operations (log entries 3, 5 and 6) -/

/-- The model's choice of log entries 3 and 4: where the listing's front decodes to an operation that
its invoker may invoke, one step performs that operation, with exactly its bytes taken off the
listing. 30_encoding.md section 5: the environment cannot invoke XOR_FOLD, TRY_DECODE_ONE,
DECODE_STEP and DRAIN directly; a step that finds one of them in its listing is refused. It can
invoke every other operation; a test of one procedure can invoke all of them. -/
def Obligations.StepPerformsTheListedOperation : Prop :=
  ∀ (s : State) (i : Instr) (rest : List Byte), decode s.listing = .ok (i, rest) →
    (s.invoker = .environment →
      ((∃ bytes, i = .xorFold bytes) ∨ (∃ bytes, i = .tryDecodeOne bytes) ∨ i = .decodeStep ∨
        i = .drain) → step s = .refused .internalOperation) ∧
    (s.invoker = .environment →
      (∀ bytes, i ≠ .xorFold bytes) → (∀ bytes, i ≠ .tryDecodeOne bytes) → i ≠ .decodeStep →
        i ≠ .drain → step s = exec i { s with listing := rest }) ∧
    (s.invoker = .procedureTest → step s = exec i { s with listing := rest })

/-- The model's choice of log entry 3 (60_exceptions.md section 4: between operations the block is
idle and holds its state): with nothing listed, a step changes nothing. -/
def Obligations.IdleStepHoldsTheState : Prop :=
  ∀ s : State, s.listing = [] → step s = .next s

/-- Rule R75: no operation is written with id 7, and a step that finds it is refused. -/
def Obligations.OperationIdSevenIsRefused : Prop :=
  (∀ (i : Instr) (rest : List Byte), encode i ≠ 7 :: rest) ∧
  (∀ (s : State) (rest : List Byte), s.listing = 7 :: rest → step s = .refused .undefinedOp)

/-- Words written out from rules R69, R76 to R79 and R88 and the vectors of 95_test_vectors.md decode
to the operations they stand for. That a wire frame is listed as its wire bytes is the model's choice
of log entry 6, and that its narrowest row names it is log entry 7. -/
def Obligations.SpecWordsDecode : Prop :=
  decode [0xDA, 0x01, 0x00, 0x04, 0x05, 0x00, 0x00, 0x00, 0x00] = .ok (.streamEnable 0 0, []) ∧
  decode [0xDA, 0x01, 0x00, 0x04, 0x05, 0x00, 0x00, 0x01, 0x01] = .ok (.streamDisable 0 0, []) ∧
  decode [0xDA, 0x01, 0x00, 0x01, 0x04, 0x00, 0x00, 0x00, 0x00] = .ok (.identityRequest 0 0, []) ∧
  decode [0xDA, 0x08, 0x00, 0x04, 0x05, 0x00, 0x00, 0xDC,
      0x00, 0x00, 0x27, 0x10, 0x00, 0x00, 0x03, 0xE8]
    = .ok (.telemetryReport 0 0 0xDC [0x00, 0x00, 0x27, 0x10, 0x00, 0x00, 0x03, 0xE8], []) ∧
  decode [0xDA, 0x00, 0x00, 0x01, 0x02, 0x03, 0x04, 0x00]
    = .ok (.frame 0x01 0x02 0x03 0x04 0x00 [], []) ∧
  decode [0x02, 0x04, 0x05, 0x00, 0x00, 0x01, 0x00, 0x00, 0x01, 0xDA]
    = .ok (.encode 0x04 0x05 0x00 0x00 [0x00], [0x01, 0xDA]) ∧
  decode [0x01, 0xDA] = .ok (.rxPush 0xDA, []) ∧
  decode [0x00] = .ok (.reset, [])

/-- 30_encoding.md sections 1, 5 and 7, in the model's listing form (log entries 6 and 7): the decoder
reads every well-formed operation, and every complete candidate with a wrong checksum (log entry 5),
back from its encoding, whatever follows it in the listing. -/
def Obligations.DecodeReadsEveryEncoding : Prop :=
  ∀ (i : Instr) (rest : List Byte), i.listable = true → decode (encode i ++ rest) = .ok (i, rest)

/-- 30_encoding.md sections 1, 3 and 7, in the model's listing form (log entries 5 to 7): what the
decoder accepts is a well-formed operation, or a FRAME whose checksum alone is wrong, and the bytes
it takes are exactly that operation's encoding: no listing is read in two ways. -/
def Obligations.DecodedOperationsAreCanonical : Prop :=
  ∀ (bs : List Byte) (i : Instr) (rest : List Byte), decode bs = .ok (i, rest) →
    (i.wf = true ∨ i.corruptFrame = true) ∧ bs = encode i ++ rest

/-- Rule R66: the header word holds byte `k` of the frame in bits `8k+7` to `8k`, its bits 23 to 8
are the length as a number, and a row matches when the masked word is its pattern. -/
def Obligations.HeaderWordHoldsTheHeader : Prop :=
  (∀ (w : List Byte) (k : Nat), 8 ≤ w.length → k < 8 →
    (headerWord w).extractLsb' (8 * k) 8 = byteAt w k) ∧
  (∀ w : List Byte, 8 ≤ w.length → (headerWord w).extractLsb' 8 16 = declaredLen w) ∧
  (∀ (r : TableRow) (h : HeaderWord), r.admits h = true ↔ h &&& r.mask = r.pattern)

/-- Rule R70: the table's six wire-frame rows; and the encoding of every well-formed operation of a
row has the row's bits under the row's mask, and meets the row's constraint. -/
def Obligations.WireRowsHaveTheTablesBits : Prop :=
  (wireFrameRows.map fun r => (r.mnemonic, r.pattern, r.mask)) =
    [("FRAME", 0x00000000000000DA, 0x00000000000000FF),
     ("STREAM_ENABLE", 0x00000005040001DA, 0xFF0000FFFFFFFFFF),
     ("STREAM_DISABLE", 0x01000005040001DA, 0xFF0000FFFFFFFFFF),
     ("IDENTITY_REQUEST", 0x00000004010001DA, 0xFF0000FFFFFFFFFF),
     ("TELEMETRY_REPORT", 0x00000005040008DA, 0x000000FFFFFFFFFF),
     ("IDENTITY_RESPONSE", 0x00000000010000DA, 0x00000000FF0000FF)] ∧
  (∀ model cmd p0 p1 chk payload, (Instr.frame model cmd p0 p1 chk payload).wf = true →
    headerWord (encode (.frame model cmd p0 p1 chk payload)) &&& 0x00000000000000FF
      = 0x00000000000000DA ∧ chk = xorFold payload) ∧
  (∀ p0 p1, headerWord (encode (.streamEnable p0 p1)) &&& 0xFF0000FFFFFFFFFF
      = 0x00000005040001DA ∧ (encode (.streamEnable p0 p1)).drop 8 = [0x00]) ∧
  (∀ p0 p1, headerWord (encode (.streamDisable p0 p1)) &&& 0xFF0000FFFFFFFFFF
      = 0x01000005040001DA ∧ (encode (.streamDisable p0 p1)).drop 8 = [0x01]) ∧
  (∀ p0 p1, headerWord (encode (.identityRequest p0 p1)) &&& 0xFF0000FFFFFFFFFF
      = 0x00000004010001DA ∧ (encode (.identityRequest p0 p1)).drop 8 = [0x00]) ∧
  (∀ p0 p1 chk payload, (Instr.telemetryReport p0 p1 chk payload).wf = true →
    headerWord (encode (.telemetryReport p0 p1 chk payload)) &&& 0x000000FFFFFFFFFF
      = 0x00000005040008DA ∧ chk = xorFold payload) ∧
  (∀ cmd p0 p1 chk payload, (Instr.identityResponse cmd p0 p1 chk payload).wf = true →
    headerWord (encode (.identityResponse cmd p0 p1 chk payload)) &&& 0x00000000FF0000FF
      = 0x00000000010000DA ∧ 64 ≤ payload.length ∧ chk = xorFold payload)

/-- 30_encoding.md section 7 and 70_reset_and_hazards.md section 4, in the model's listing form (log
entries 3 to 6): a run of the machine over the listing of any operations that a listing can hold and
that its invoker may invoke performs exactly those operations, in order. -/
def Obligations.ListingRunsItsOperations : Prop :=
  ∀ (ops : List Instr) (s : State), (∀ i ∈ ops, i.listable = true) →
    (∀ i ∈ ops, mayInvoke s.invoker i = true) →
    Host.Core.run Sys2Proof.core ops.length { s with listing := listingOf ops }
      = perform ops { s with listing := [] }

/-- Rule R87: what each pseudo-operation does, in full: the bytes of `RX` are received one after
another, `ENC` takes default params, and the three named requests send their frames. -/
def Obligations.PseudoOperationsExpand : Prop :=
  (∀ (b : Byte) (bs : List Byte),
    (ProgramLine.rx b bs).expand = .rxPush b :: bs.map .rxPush) ∧
  (∀ (b : Byte) (bs : List Byte) (s : State),
    perform (ProgramLine.rx b bs).expand s = .next (receiveChunk (b :: bs) s)) ∧
  (∀ (m c : Byte) (pl : List Byte), (ProgramLine.enc m c pl).expand = [.encode m c 0x00 0x00 pl]) ∧
  ProgramLine.enableStream.expand = (ProgramLine.enc 0x04 0x05 [0x00]).expand ∧
  ProgramLine.disableStream.expand = (ProgramLine.enc 0x04 0x05 [0x01]).expand ∧
  ProgramLine.requestIdentity.expand = (ProgramLine.enc 0x01 0x04 []).expand

/-! ### XOR_FOLD -/

/-- Rule R90: the fold starts at `0x00` and takes in the bytes one after another; its corner cases
and its worked example. -/
def Obligations.XorFoldAccumulatesEveryByte : Prop :=
  xorFold [] = 0x00 ∧ (∀ b : Byte, xorFold [b] = b) ∧
  (∀ (s : List Byte) (b : Byte), xorFold (s ++ [b]) = xorFold s ^^^ b) ∧
  xorFold [0x12, 0x34, 0x56, 0x78] = 0x08

/-- Rule R91: for a non-empty sequence the fold is the first byte XOR-combined with each subsequent
one; for the empty sequence it is `0x00`. -/
def Obligations.XorFoldIsSeededByTheFirstByte : Prop :=
  (∀ (b : Byte) (s : List Byte), xorFold (b :: s) = s.foldl (fun acc x => acc ^^^ x) b) ∧
  xorFold [] = 0x00

/-- Rule R92: order does not matter; concatenation XORs; a changed byte always changes the fold; and
the three kinds of change that never do. -/
def Obligations.XorFoldAlgebra : Prop :=
  (∀ s t : List Byte, s.Perm t → xorFold s = xorFold t) ∧
  (∀ s t : List Byte, xorFold (s ++ t) = xorFold s ^^^ xorFold t) ∧
  (∀ (s : List Byte) (i : Nat) (b : Byte), i < s.length → b ≠ byteAt s i →
    xorFold (s.set i b) = xorFold s ^^^ byteAt s i ^^^ b ∧ xorFold (s.set i b) ≠ xorFold s) ∧
  (∀ (s : List Byte) (i j : Nat) (m : Byte), i < s.length → j < s.length → i ≠ j →
    xorFold ((s.set i (byteAt s i ^^^ m)).set j (byteAt s j ^^^ m)) = xorFold s) ∧
  (∀ (s : List Byte) (i j : Nat), i < s.length → j < s.length →
    xorFold ((s.set i (byteAt s j)).set j (byteAt s i)) = xorFold s) ∧
  (∀ (s t u : List Byte) (b : Byte), xorFold (s ++ b :: t ++ b :: u) = xorFold (s ++ t ++ u))

/-- The model's choice of log entry 4: XOR_FOLD and TRY_DECODE_ONE, performed by themselves, always
complete, show their result, and change nothing else (rule R35 gives them no write and no
emission). -/
def Obligations.PureProceduresOnlyShowTheirResult : Prop :=
  (∀ (bytes : List Byte) (s : State), exec (.xorFold bytes) s
    = .next { s with returned := some (.fold (xorFold bytes)) }) ∧
  (∀ (bytes : List Byte) (s : State), exec (.tryDecodeOne bytes) s
    = .next { s with returned := some (.decodeResult (classify bytes)) })

/-! ### ENCODE -/

/-- Rule R93: an admitted ENCODE sends the assembled frame, contiguously, and changes nothing else;
a longer payload is refused; and the worked example. -/
def Obligations.EncodeSendsTheAssembledFrame : Prop :=
  (∀ (model cmd p0 p1 : Byte) (payload : List Byte) (s : State), payload.length ≤ 65535 →
    ∃ pl : List Byte, pl = (if payload = [] then [0x00] else payload) ∧
      1 ≤ pl.length ∧ pl.length ≤ 65535 ∧
      exec (.encode model cmd p0 p1 payload) s = .next { s with
        tx := s.tx ++ [0xDA, BitVec.ofNat 8 pl.length, BitVec.ofNat 8 (pl.length / 256),
          model, cmd, p0, p1, xorFold pl] ++ pl }) ∧
  (∀ (model cmd p0 p1 : Byte) (payload : List Byte) (s : State), 65535 < payload.length →
    exec (.encode model cmd p0 p1 payload) s = .refused .payloadTooLong) ∧
  (∀ s : State, exec (.encode 0x04 0x05 0x00 0x00 [0x00]) s = .next { s with
    tx := s.tx ++ [0xDA, 0x01, 0x00, 0x04, 0x05, 0x00, 0x00, 0x00, 0x00] })

/-- Rule R94: no frame that ENCODE sends declares a length of 0; an empty payload is sent as
`[0x00]`, with checksum `0x00`. -/
def Obligations.EncodeNeverSendsAnEmptyPayload : Prop :=
  (∀ (model cmd p0 p1 : Byte) (payload : List Byte) (s t : State),
    exec (.encode model cmd p0 p1 payload) s = .next t →
      declaredLen (t.tx.drop s.tx.length) ≠ 0) ∧
  (∀ (model cmd p0 p1 : Byte) (s : State),
    exec (.encode model cmd p0 p1 []) s = exec (.encode model cmd p0 p1 [0x00]) s ∧
    exec (.encode model cmd p0 p1 []) s = .next { s with
      tx := s.tx ++ [0xDA, 0x01, 0x00, model, cmd, p0, p1, 0x00, 0x00] })

/-- Rule R95: a payload that the length field cannot count is refused, by ENCODE. -/
def Obligations.EncodeRefusesAnUncountablePayload : Prop :=
  ∀ (model cmd p0 p1 : Byte) (payload : List Byte) (s : State),
    exec (.encode model cmd p0 p1 payload) s = .refused .payloadTooLong ↔ 65535 < payload.length

/-- Rule R96: the size of what ENCODE sends, its first byte, and the example at the top of the
range. -/
def Obligations.EncodeOutputSize : Prop :=
  (∀ (model cmd p0 p1 : Byte) (payload : List Byte) (s : State), payload.length ≤ 65535 →
    ∃ w : List Byte, exec (.encode model cmd p0 p1 payload) s = .next { s with tx := s.tx ++ w } ∧
      w.length = 8 + max 1 payload.length ∧ 9 ≤ w.length ∧ w.length ≤ 65543 ∧
      byteAt w 0 = 0xDA) ∧
  (∀ (model cmd p0 p1 : Byte) (s : State),
    exec (.encode model cmd p0 p1 (List.replicate 65535 0x55)) s = .next { s with
      tx := s.tx ++ [0xDA, 0xFF, 0xFF, model, cmd, p0, p1, 0x55] ++ List.replicate 65535 0x55 })

/-- Rule R98: the params reach wire bytes 5 and 6 unchanged; and the example. -/
def Obligations.EncodePassesParamsThrough : Prop :=
  (∀ (model cmd p0 p1 : Byte) (payload : List Byte) (s t : State),
    exec (.encode model cmd p0 p1 payload) s = .next t →
      byteAt (t.tx.drop s.tx.length) 5 = p0 ∧ byteAt (t.tx.drop s.tx.length) 6 = p1) ∧
  (∀ s : State, exec (.encode 0xAB 0xCD 0x11 0x22 [0xFF]) s = .next { s with
    tx := s.tx ++ [0xDA, 0x01, 0x00, 0xAB, 0xCD, 0x11, 0x22, 0xFF, 0xFF] })

/-- Rules R76 to R78: with default params the three requests are the ENCODE the rule names, and send
the rule's bytes. -/
def Obligations.RequestRowsSendTheirFrames : Prop :=
  ∀ s : State,
    (exec (.streamEnable 0x00 0x00) s = exec (.encode 0x04 0x05 0x00 0x00 [0x00]) s ∧
      exec (.streamEnable 0x00 0x00) s = .next { s with
        tx := s.tx ++ [0xDA, 0x01, 0x00, 0x04, 0x05, 0x00, 0x00, 0x00, 0x00] }) ∧
    (exec (.streamDisable 0x00 0x00) s = exec (.encode 0x04 0x05 0x00 0x00 [0x01]) s ∧
      exec (.streamDisable 0x00 0x00) s = .next { s with
        tx := s.tx ++ [0xDA, 0x01, 0x00, 0x04, 0x05, 0x00, 0x00, 0x01, 0x01] }) ∧
    (exec (.identityRequest 0x00 0x00) s = exec (.encode 0x01 0x04 0x00 0x00 []) s ∧
      exec (.identityRequest 0x00 0x00) s = .next { s with
        tx := s.tx ++ [0xDA, 0x01, 0x00, 0x01, 0x04, 0x00, 0x00, 0x00, 0x00] })

/-- 30_encoding.md section 4 masks the params out of every row: in the model (log entry 7) a request
row with any params is the ENCODE with those params, and always completes. -/
def Obligations.RequestRowsCarryAnyParams : Prop :=
  ∀ (s : State) (p0 p1 : Byte),
    exec (.streamEnable p0 p1) s = .next { s with
      tx := s.tx ++ [0xDA, 0x01, 0x00, 0x04, 0x05, p0, p1, 0x00, 0x00] } ∧
    exec (.streamDisable p0 p1) s = .next { s with
      tx := s.tx ++ [0xDA, 0x01, 0x00, 0x04, 0x05, p0, p1, 0x01, 0x01] } ∧
    exec (.identityRequest p0 p1) s = .next { s with
      tx := s.tx ++ [0xDA, 0x01, 0x00, 0x01, 0x04, p0, p1, 0x00, 0x00] }

/-- Rule R29: the encoder has no state: what an ENCODE does is the same in every two states, and it
leaves everything but the bytes sent as it was. -/
def Obligations.EncodeDependsOnItsOperandsAlone : Prop :=
  ∀ (model cmd p0 p1 : Byte) (payload : List Byte),
    (∃ w : List Byte, ∀ s : State,
      exec (.encode model cmd p0 p1 payload) s = .next { s with tx := s.tx ++ w }) ∨
    (∀ s : State, exec (.encode model cmd p0 p1 payload) s = .refused .payloadTooLong)

/-- Rule R100: the decoder answers every frame that ENCODE sends, whatever follows it, with the
operands it was sent with, and takes exactly its bytes. -/
def Obligations.DecoderReadsWhatEncodeSends : Prop :=
  ∀ (model cmd p0 p1 : Byte) (payload : List Byte) (s : State), payload.length ≤ 65535 →
    ∃ (w pl : List Byte), pl = (if payload = [] then [0x00] else payload) ∧
      exec (.encode model cmd p0 p1 payload) s = .next { s with tx := s.tx ++ w } ∧
      w.length = 8 + pl.length ∧
      ∀ rest : List Byte, classify (w ++ rest) = .decoded
        { len := BitVec.ofNat 16 pl.length, model := model, cmd := cmd, p0 := p0, p1 := p1,
          chk := xorFold pl, payload := pl } (8 + pl.length)

/-! ### TRY_DECODE_ONE -/

/-- Rule R112: `NeedMoreData` is answered in exactly three cases, and DECODE_STEP and DRAIN then
leave the buffer untouched and emit nothing. -/
def Obligations.NeedMoreDataCases : Prop :=
  (∀ s : List Byte, classify s = .needMoreData ↔
    (s.length = 0 ∨
     (byteAt s 0 = 0xDA ∧ 1 ≤ s.length ∧ s.length ≤ 7) ∨
     (byteAt s 0 = 0xDA ∧ 8 ≤ s.length ∧ s.length < 8 + (declaredLen s).toNat))) ∧
  (∀ s : State, classify s.rb = .needMoreData →
    exec .drain s = .next s ∧ ∃ r, exec .decodeStep s = .next { s with returned := r })

/-- Rules R113 and R121: `Resync(1, BAD_MAGIC)` is answered exactly for a non-empty sequence with
another first byte; DRAIN drops exactly that byte, reports it, and retries. -/
def Obligations.BadMagicDropsOneByte : Prop :=
  (∀ s : List Byte, classify s = .resync .badMagic ↔ (1 ≤ s.length ∧ byteAt s 0 ≠ 0xDA)) ∧
  (∀ s : State, classify s.rb = .resync .badMagic →
    exec .drain s = exec .drain { s with
      rb := s.rb.drop 1, rxOut := s.rxOut ++ [.diag (.badMagic (byteAt s.rb 0))] })

/-- Rule R114: `Resync(1, BAD_CHECKSUM)` is answered exactly for a complete candidate whose checksum
does not match; DRAIN drops exactly its magic byte and retries. -/
def Obligations.BadChecksumDropsOneByte : Prop :=
  (∀ s : List Byte, classify s = .resync .badChecksum ↔
    (byteAt s 0 = 0xDA ∧ 8 + (declaredLen s).toNat ≤ s.length ∧
      byteAt s 7 ≠ xorFold (slice s 8 (8 + (declaredLen s).toNat)))) ∧
  (∀ s : State, classify s.rb = .resync .badChecksum →
    ∃ tail, s.rb = 0xDA :: tail ∧
      exec .drain s = exec .drain { s with
        rb := tail,
        rxOut := s.rxOut ++ [.diag (.badChecksum (byteAt s.rb 7)
          (xorFold (slice s.rb 8 (8 + (declaredLen s.rb).toNat))))] })

/-- Rule R115: `Decoded(f, n)` is answered exactly for a complete candidate whose checksum matches,
with the fields copied from their places; later bytes are not examined; DRAIN takes exactly `n`
bytes, hands the frame over, and goes on. -/
def Obligations.DecodedTakesExactlyTheFrame : Prop :=
  (∀ (s : List Byte) (f : Frame) (n : Nat), classify s = .decoded f n ↔
    (byteAt s 0 = 0xDA ∧ 8 + (declaredLen s).toNat ≤ s.length ∧
      byteAt s 7 = xorFold (slice s 8 (8 + (declaredLen s).toNat)) ∧
      n = 8 + (declaredLen s).toNat ∧
      f = { len := declaredLen s, model := byteAt s 3, cmd := byteAt s 4, p0 := byteAt s 5,
            p1 := byteAt s 6, chk := byteAt s 7, payload := slice s 8 n })) ∧
  (∀ (s t : List Byte) (f : Frame) (n : Nat), classify s = .decoded f n →
    classify (s.take n ++ t) = .decoded f n) ∧
  (∀ (s : State) (f : Frame) (n : Nat), classify s.rb = .decoded f n →
    exec .drain s = exec .drain { s with rb := s.rb.drop n, rxOut := s.rxOut ++ [.frame f] })

/-- Rule R116: a frame of length 0 is complete at 8 bytes and is decoded exactly with checksum
`0x00`; the encoder's one-byte `[0x00]` payload is an ordinary one. -/
def Obligations.ZeroLengthFrames : Prop :=
  ∀ m c p0 p1 x : Byte,
    classify [0xDA, 0x00, 0x00, m, c, p0, p1, 0x00] = .decoded
      { len := 0, model := m, cmd := c, p0 := p0, p1 := p1, chk := 0x00, payload := [] } 8 ∧
    (x ≠ 0x00 → classify [0xDA, 0x00, 0x00, m, c, p0, p1, x] = .resync .badChecksum) ∧
    classify [0xDA, 0x01, 0x00, m, c, p0, p1, 0x00, 0x00] = .decoded
      { len := 1, model := m, cmd := c, p0 := p0, p1 := p1, chk := 0x00, payload := [0x00] } 9

/-- Rule R117: `model`, `cmd`, `p0` and `p1` change no answer; a decoded frame carries them as they
are. -/
def Obligations.RoutingBytesAreUnchecked : Prop :=
  ∀ (lo hi chk m c p q m' c' p' q' : Byte) (body : List Byte),
    (classify (0xDA :: lo :: hi :: m :: c :: p :: q :: chk :: body) = .needMoreData ↔
      classify (0xDA :: lo :: hi :: m' :: c' :: p' :: q' :: chk :: body) = .needMoreData) ∧
    (∀ cause, classify (0xDA :: lo :: hi :: m :: c :: p :: q :: chk :: body) = .resync cause ↔
      classify (0xDA :: lo :: hi :: m' :: c' :: p' :: q' :: chk :: body) = .resync cause) ∧
    (∀ f n, classify (0xDA :: lo :: hi :: m :: c :: p :: q :: chk :: body) = .decoded f n →
      f.model = m ∧ f.cmd = c ∧ f.p0 = p ∧ f.p1 = q ∧
      classify (0xDA :: lo :: hi :: m' :: c' :: p' :: q' :: chk :: body)
        = .decoded { f with model := m', cmd := c', p0 := p', p1 := q' } n)

/-- Rule R119: a `Resync` or `Decoded` answer is final, and depends only on the first `8 + N` bytes;
a `NeedMoreData` answer may become any of the three. -/
def Obligations.AnswersAreStableUnderExtension : Prop :=
  (∀ s t : List Byte, classify s ≠ .needMoreData → classify (s ++ t) = classify s) ∧
  (∀ s : List Byte, classify s ≠ .needMoreData →
    classify (s.take (8 + (declaredLen s).toNat)) = classify s) ∧
  (∃ s t u v : List Byte, classify s = .needMoreData ∧ classify (s ++ t) = .needMoreData ∧
    classify (s ++ u) = .resync .badChecksum ∧ ∃ f n, classify (s ++ v) = .decoded f n)

/-- Rule R120: which bytes each answer depends on. -/
def Obligations.BytesTheDecoderExamines : Prop :=
  (∀ s t : List Byte, s ≠ [] → t ≠ [] → byteAt s 0 = byteAt t 0 → byteAt s 0 ≠ 0xDA →
    classify s = classify t) ∧
  (∀ s t : List Byte, s.length = t.length → s.length < 8 → byteAt s 0 = 0xDA →
    byteAt t 0 = 0xDA → classify s = classify t) ∧
  (∀ s t : List Byte, s.length = t.length → s.take 3 = t.take 3 → byteAt s 0 = 0xDA →
    8 ≤ s.length → s.length < 8 + (declaredLen s).toNat → classify s = classify t) ∧
  (∀ s t : List Byte, s.take (8 + (declaredLen s).toNat) = t.take (8 + (declaredLen s).toNat) →
    byteAt s 0 = 0xDA → 8 + (declaredLen s).toNat ≤ s.length → classify s = classify t) ∧
  (∀ s t : List Byte, s.length = 0 → t.length = 0 → classify s = classify t)

/-- Rule R122: a valid frame with exactly one payload byte changed is answered
`Resync(1, BAD_CHECKSUM)`, whatever follows it. -/
def Obligations.OneCorruptPayloadByteIsDetected : Prop :=
  ∀ (m c p0 p1 b : Byte) (payload rest : List Byte) (i : Nat),
    payload.length ≤ 65535 → i < payload.length → b ≠ byteAt payload i →
    classify (wireBytes (payloadLen payload) m c p0 p1 (xorFold payload) (payload.set i b) ++ rest)
      = .resync .badChecksum

/-! ### DECODE_STEP and DRAIN -/

/-- Rule R140: DECODE_STEP's four cases, what it emits, removes and answers, and that it always
completes. How its answer is shown is the model's choice (log entry 4), left open by `r`. -/
def Obligations.DecodeStepAppliesOneResult : Prop :=
  ∀ s : State, ∃ r : Option ProcResult,
    (classify s.rb = .needMoreData →
      (applyDecode s).1 = .done ∧ exec .decodeStep s = .next { s with returned := r }) ∧
    (classify s.rb = .resync .badMagic → (applyDecode s).1 = .more ∧
      exec .decodeStep s = .next { s with
        rb := s.rb.drop 1, returned := r,
        rxOut := s.rxOut ++ [.diag (.badMagic (byteAt s.rb 0))] }) ∧
    (classify s.rb = .resync .badChecksum → (applyDecode s).1 = .more ∧
      exec .decodeStep s = .next { s with
        rb := s.rb.drop 1, returned := r,
        rxOut := s.rxOut ++ [.diag (.badChecksum (byteAt s.rb 7)
          (xorFold (slice s.rb 8 (8 + (declaredLen s.rb).toNat))))] }) ∧
    (∀ f n, classify s.rb = .decoded f n → (applyDecode s).1 = .more ∧
      exec .decodeStep s = .next { s with
        rb := s.rb.drop n, returned := r, rxOut := s.rxOut ++ [.frame f] })

/-- The model's choice of log entry 4: DECODE_STEP, performed by itself, shows the DONE or MORE that
it answers to DRAIN. -/
def Obligations.DecodeStepShowsItsSignal : Prop :=
  ∀ s : State, ∃ t, exec .decodeStep s = .next t ∧ t.returned = some (.signal (applyDecode s).1)

/-- Rules R141 and R142: DRAIN is a run of DECODE_STEPs that each answer MORE and remove a byte or
more, at most `|RB|` of them, ended by one that answers DONE. -/
def Obligations.DrainIsABoundedRunOfSteps : Prop :=
  (∀ s t : State, applyDecode s = (.more, t) → t.rb.length < s.rb.length) ∧
  (∀ s : State, ∃ (k : Nat) (t : State), exec .drain s = .next t ∧ k ≤ s.rb.length ∧
    moreSteps k s t ∧ (applyDecode t).1 = .done)

/-- Rule R143: after DRAIN the decoder waits for more, the buffer has one of the three drained
shapes, and it is a suffix of what it was. -/
def Obligations.DrainPostcondition : Prop :=
  ∀ s : State, ∃ t, exec .drain s = .next t ∧ t.Drained ∧ DrainedShape t.rb ∧ t.rb <:+ s.rb

/-! ### RX_PUSH and chunks -/

/-- Rule R144: RX_PUSH clears a full buffer and reports it, appends the byte, and drains; its corner
cases and its worked example; it always completes. -/
def Obligations.RxPushAppendsAndDrains : Prop :=
  (∀ (b : Byte) (s : State), (∃ t, exec (.rxPush b) s = .next t) ∧
    (s.rb.length = s.rbCap → exec (.rxPush b) s = exec .drain { s with
      rb := [b], rxOut := s.rxOut ++ [.diag (.overflow s.rbCap)] }) ∧
    (s.rb.length ≠ s.rbCap → exec (.rxPush b) s = exec .drain { s with rb := s.rb ++ [b] })) ∧
  (∀ (b : Byte) (s : State), s.rb = [] → 1 ≤ s.rbCap → b ≠ 0xDA →
    exec (.rxPush b) s = .next { s with rxOut := s.rxOut ++ [.diag (.badMagic b)] }) ∧
  (∀ s : State, s.rb = [] → 1 ≤ s.rbCap → exec (.rxPush 0xDA) s = .next { s with rb := [0xDA] }) ∧
  (∀ s : State, s.rb = [] → 9 ≤ s.rbCap →
    perform ([0xDA, 0x01, 0x00, 0x04, 0x05, 0x00, 0x00, 0x00].map .rxPush) s
      = .next { s with rb := [0xDA, 0x01, 0x00, 0x04, 0x05, 0x00, 0x00, 0x00] } ∧
    perform ([0xDA, 0x01, 0x00, 0x04, 0x05, 0x00, 0x00, 0x00, 0x00].map .rxPush) s
      = .next { s with
        rxOut := s.rxOut ++ [.frame ⟨1, 0x04, 0x05, 0x00, 0x00, 0x00, [0x00]⟩] })

/-- Rules R145 and R118: a chunk of any bytes is its RX_PUSHes in order; every sequence of bytes is
received, none is refused; the empty chunk is no operation. -/
def Obligations.EveryChunkIsReceived : Prop :=
  (∀ (bs : List Byte) (s : State), perform (bs.map .rxPush) s = .next (receiveChunk bs s)) ∧
  (∀ s : State, perform (([] : List Byte).map .rxPush) s = .next s)

/-- 30_encoding.md section 6 and 42_reassembly.md section 3, with the direction that log entry 7
chooses: the received rows push their wire bytes, in order. That a received row whose payload the
length field cannot count is refused as `payloadTooLong` is the model's choice of log entry 15. -/
def Obligations.ReceivedRowsPushTheirBytes : Prop :=
  ∀ (s : State) (model cmd p0 p1 chk : Byte) (payload : List Byte),
    (payload.length ≤ 65535 →
      exec (.frame model cmd p0 p1 chk payload) s
        = perform ((encode (.frame model cmd p0 p1 chk payload)).map .rxPush) s ∧
      exec (.telemetryReport p0 p1 chk payload) s
        = perform ((encode (.telemetryReport p0 p1 chk payload)).map .rxPush) s ∧
      exec (.identityResponse cmd p0 p1 chk payload) s
        = perform ((encode (.identityResponse cmd p0 p1 chk payload)).map .rxPush) s) ∧
    (65535 < payload.length →
      exec (.frame model cmd p0 p1 chk payload) s = .refused .payloadTooLong ∧
      exec (.telemetryReport p0 p1 chk payload) s = .refused .payloadTooLong ∧
      exec (.identityResponse cmd p0 p1 chk payload) s = .refused .payloadTooLong)

/-- 42_reassembly.md section 4 and 41_decoder.md section 1, for the rows that log entry 7 receives: a
valid frame that arrives on an empty buffer and fits it is handed over whole, once, and nothing
else changes. -/
def Obligations.ReceivedFramesAreHandedOver : Prop :=
  ∀ (s : State) (model cmd p0 p1 : Byte) (payload : List Byte),
    s.rb = [] → payload.length ≤ 65535 → 8 + payload.length ≤ s.rbCap →
    exec (.frame model cmd p0 p1 (xorFold payload) payload) s = .next { s with
      rxOut := s.rxOut ++ [.frame ⟨BitVec.ofNat 16 payload.length, model, cmd, p0, p1,
        xorFold payload, payload⟩] } ∧
    (payload.length = 8 →
      exec (.telemetryReport p0 p1 (xorFold payload) payload) s = .next { s with
        rxOut := s.rxOut ++ [.frame ⟨8, 0x04, 0x05, p0, p1, xorFold payload, payload⟩] }) ∧
    (64 ≤ payload.length →
      exec (.identityResponse cmd p0 p1 (xorFold payload) payload) s = .next { s with
        rxOut := s.rxOut ++ [.frame ⟨BitVec.ofNat 16 payload.length, 0x01, cmd, p0, p1,
          xorFold payload, payload⟩] })

/-- Rule R146: only the bytes count, not how they are grouped into chunks; and receiving byte by byte
does the same as appending the whole chunk and draining once, where neither's cap fires. -/
def Obligations.ChunkingInvariance : Prop :=
  (∀ (chunks : List (List Byte)) (s : State),
    chunks.foldl (fun t c => receiveChunk c t) s = receiveChunk chunks.flatten s) ∧
  (∀ (bs : List Byte) (s : State), s.Drained → s.rb.length + bs.length ≤ s.rbCap →
    perform (bs.map .rxPush) s = exec .drain { s with rb := s.rb ++ bs })

/-- 42_reassembly.md section 4 (order and positions): whatever is received, in whatever state, the
new emissions read the buffered bytes followed by the received ones, from the front, in order, each
being what the decoder answers at the place the head has reached, and leave exactly the final
buffer. So frames come in stream order, a resync skips no position, and only a decoded frame or an
overflow passes over bytes. -/
def Obligations.EmissionsReadTheStream : Prop :=
  ∀ (bs : List Byte) (s : State), ∃ (t : State) (outs : List RxOut),
    perform (bs.map .rxPush) s = .next t ∧ t.rxOut = s.rxOut ++ outs ∧
    reads outs (s.rb ++ bs) t.rb

/-- 41_decoder.md section 1 and 42_reassembly.md sections 1 and 3, for the row that log entry 7
receives: a
complete candidate with a wrong checksum that arrives on an empty buffer and fits it is reported
once, loses its magic byte alone, and what is left of it is examined again; it always completes. -/
def Obligations.CorruptFramesAreRecovered : Prop :=
  ∀ (s : State) (model cmd p0 p1 chk : Byte) (payload : List Byte),
    s.rb = [] → payload.length ≤ 65535 → 8 + payload.length ≤ s.rbCap →
    chk ≠ xorFold payload →
    (∃ t, exec (.frame model cmd p0 p1 chk payload) s = .next t) ∧
    exec (.frame model cmd p0 p1 chk payload) s = exec .drain { s with
      rb := [BitVec.ofNat 8 payload.length, BitVec.ofNat 8 (payload.length / 256),
        model, cmd, p0, p1, chk] ++ payload,
      rxOut := s.rxOut ++ [.diag (.badChecksum chk (xorFold payload))] }

/-- 42_reassembly.md sections 4 and 5: once the head has reached the start of a valid frame that fits
the buffer, and no byte but the frame's own has arrived since, the rest of its bytes complete it and
it is handed over. -/
def Obligations.ReachedFrameIsCompleted : Prop :=
  ∀ (s : State) (f : Frame) (k : Nat), f.Sound → f.wire.length ≤ s.rbCap → k < f.wire.length →
    s.rb = f.wire.take k →
    perform ((f.wire.drop k).map .rxPush) s
      = .next { s with rb := [], rxOut := s.rxOut ++ [.frame f] }

/-- 42_reassembly.md sections 3 and 4: bytes other than the magic byte, arriving on an empty buffer,
are each dropped and reported. -/
def Obligations.NoiseIsDroppedByteByByte : Prop :=
  ∀ (s : State) (noise : List Byte), s.rb = [] → 1 ≤ s.rbCap → (∀ b ∈ noise, b ≠ 0xDA) →
    perform (noise.map .rxPush) s
      = .next { s with rxOut := s.rxOut ++ noise.map fun b => .diag (.badMagic b) }

/-- 70_reset_and_hazards.md section 2 (stall): while the candidate at the head is incomplete and the
cap is not reached, arriving bytes pile up behind it and nothing is emitted, whatever they are. -/
def Obligations.IncompleteCandidateStalls : Prop :=
  ∀ (s : State) (bs : List Byte), byteAt s.rb 0 = 0xDA → 8 ≤ s.rb.length →
    s.rb.length + bs.length < 8 + (declaredLen s.rb).toNat →
    s.rb.length + bs.length ≤ s.rbCap →
    perform (bs.map .rxPush) s = .next { s with rb := s.rb ++ bs }

/-! ### The capacity -/

/-- Rule R150: at a full buffer the overflow event comes first, the held bytes are discarded, and the
arriving byte is kept and drained as usual; otherwise there is no overflow event; the bound always
holds. -/
def Obligations.OverflowPolicy : Prop :=
  ∀ (b : Byte) (s : State),
    (s.rb.length = s.rbCap → exec (.rxPush b) s = exec .drain { s with
      rb := [b], rxOut := s.rxOut ++ [.diag (.overflow s.rbCap)] }) ∧
    (∃ (t : State) (outs : List RxOut), exec (.rxPush b) s = .next t ∧
      t.rxOut = s.rxOut ++ (if s.rb.length = s.rbCap then [.diag (.overflow s.rbCap)] else [])
        ++ outs ∧ (∀ o ∈ outs, o.isOverflow = false) ∧
      (1 ≤ s.rbCap → s.rb.length ≤ s.rbCap → t.rb.length ≤ t.rbCap ∧ t.rbCap = s.rbCap))

/-- Rule R151: between transitions at most 65542 bytes are held, so a cap of 65543 or more never
fires; with 65542, a frame of maximum length fills the buffer one byte short and is discarded by
the next arrival. -/
def Obligations.OverflowNeverFiresAtMaxFrame : Prop :=
  (∀ (b : Byte) (s : State), s.Inv → 65543 ≤ s.rbCap → s.rb.length ≤ 65542 ∧
    ∃ (t : State) (outs : List RxOut), exec (.rxPush b) s = .next t ∧
      t.rxOut = s.rxOut ++ outs ∧ ∀ o ∈ outs, o.isOverflow = false) ∧
  (∀ (f : Frame) (s : State) (b : Byte), f.Sound → f.len = 65535 → s.rbCap = 65542 →
    s.rb = f.wire.take 65542 →
      s.Inv ∧ exec (.rxPush b) s = exec .drain { s with
        rb := [b], rxOut := s.rxOut ++ [.diag (.overflow 65542)] })

/-- Rule R152: with a small cap, (a) no frame larger than it is ever handed over; (b) a frame within
it that waits at the head is not disturbed; (c) an overflow happens only with a larger candidate at
the head, and the arriving byte is then examined from an empty buffer. -/
def Obligations.SmallCapacity : Prop :=
  (∀ (b : Byte) (s t : State) (outs : List RxOut) (f : Frame), s.Inv → s.rbCap < 65543 →
    exec (.rxPush b) s = .next t → t.rxOut = s.rxOut ++ outs → .frame f ∈ outs →
      8 + f.len.toNat ≤ s.rbCap) ∧
  (∀ (f : Frame) (k : Nat) (s : State), f.Sound → s.rbCap < 65543 → f.wire.length ≤ s.rbCap →
    k < f.wire.length → s.rb = f.wire.take k →
      s.rb.length < s.rbCap ∧
      perform ((f.wire.drop k).map .rxPush) s
        = .next { s with rb := [], rxOut := s.rxOut ++ [.frame f] }) ∧
  (∀ (b : Byte) (s : State), s.Inv → s.rbCap < 65543 → s.rb.length = s.rbCap →
    byteAt s.rb 0 = 0xDA ∧ (8 ≤ s.rb.length → s.rbCap < 8 + (declaredLen s.rb).toNat) ∧
    exec (.rxPush b) s = exec (.rxPush b) { s with
      rb := [], rxOut := s.rxOut ++ [.diag (.overflow s.rbCap)] })

/-! ### Invariants -/

/-- Rule R27, with the capacity's bound of rule R25: the buffer is drained at the start of a run, and
every transition, from every state that meets the invariant, keeps it. -/
def Obligations.EveryStepKeepsTheBufferDrained : Prop :=
  (∀ cap : Nat, 1 ≤ cap → (State.resetWith cap).Inv) ∧
  (∀ s t : State, s.Inv → step s = .next t → t.Inv ∧ t.rbCap = s.rbCap)

/-- The model's choice of log entry 1: the invariant holds at the model's own reset state, whose
capacity is the recommended one. -/
def Obligations.ResetStateIsDrained : Prop := State.reset.Inv ∧ State.reset.rbCap = 65543

/-- Rule R28: a drained buffer has exactly one of three shapes, and at most 65542 bytes. -/
def Obligations.DrainedBufferShapes : Prop :=
  (∀ s : State, s.Drained ↔ DrainedShape s.rb) ∧
  (∀ s : State, s.Drained → s.rb.length ≤ 65542) ∧
  (∀ rb : List Byte, ¬ (rb = [] ∧ 1 ≤ rb.length) ∧ ¬ (rb = [] ∧ 8 ≤ rb.length) ∧
    ¬ (rb.length ≤ 7 ∧ 8 ≤ rb.length))

/-- Every frame handed over has as many payload bytes as it declares (rule R14) and the fold of its
payload as checksum (rules R63 and R115); every event has what its format says, and no other code is
emitted (rule R74). Every transition keeps this. -/
def Obligations.EveryStepKeepsEmissionsSound : Prop :=
  ∀ s t : State, (∀ o ∈ s.rxOut, o.Sound s.rbCap) → step s = .next t →
    (∀ o ∈ t.rxOut, o.Sound t.rbCap) ∧ (∀ e ∈ t.diag, e.code = 1 ∨ e.code = 2 ∨ e.code = 3)

/-! ### What each operation touches -/

/-- 10_state.md section 5 (the table): what each operation leaves as it was when it gives a next
state. `listing` and `invoker` are never touched; the histories only grow; the capacity is fixed; and
the model's `returned` is touched by the procedures of log entry 4 alone. -/
def Obligations.WhatEachOperationLeavesUnchanged : Prop :=
  ∀ (i : Instr) (s t : State), exec i s = .next t →
    t.listing = s.listing ∧ t.invoker = s.invoker ∧ t.rbCap = s.rbCap ∧
    s.rxOut <+: t.rxOut ∧ s.tx <+: t.tx ∧
    (match i with
     | .encode _ _ _ _ _ | .streamEnable _ _ | .streamDisable _ _ | .identityRequest _ _ =>
         t.rb = s.rb ∧ t.rxOut = s.rxOut ∧ t.returned = s.returned
     | .xorFold _ | .tryDecodeOne _ => t.rb = s.rb ∧ t.rxOut = s.rxOut ∧ t.tx = s.tx
     | .reset => t.rb = [] ∧ t.rxOut = s.rxOut ∧ t.tx = s.tx ∧ t.returned = s.returned
     | .rxPush _ | .frame _ _ _ _ _ _ | .telemetryReport _ _ _ _ | .identityResponse _ _ _ _ _
     | .drain => t.tx = s.tx ∧ t.returned = s.returned
     | .decodeStep => t.tx = s.tx)

/-- Rule R30: no operation reads the histories (nor the model's listing, shown result and invoker): in two
states with the same buffer and capacity, an operation leaves the same buffer and emits the same. -/
def Obligations.HistoriesAreNeverRead : Prop :=
  ∀ (i : Instr) (s u t : State), s.rb = u.rb → s.rbCap = u.rbCap → exec i s = .next t →
    ∃ (v : State) (outs : List RxOut) (bytes : List Byte), exec i u = .next v ∧ v.rb = t.rb ∧
      t.rxOut = s.rxOut ++ outs ∧ v.rxOut = u.rxOut ++ outs ∧
      t.tx = s.tx ++ bytes ∧ v.tx = u.tx ++ bytes

/-- Rules R52 and R161: an ENCODE commutes with an RX_PUSH and with a RESET. -/
def Obligations.TransmitCommutesWithReceiveAndReset : Prop :=
  ∀ (model cmd p0 p1 b : Byte) (payload : List Byte) (s : State), payload.length ≤ 65535 →
    (∃ t, perform [.encode model cmd p0 p1 payload, .rxPush b] s = .next t ∧
      perform [.rxPush b, .encode model cmd p0 p1 payload] s = .next t) ∧
    (∃ t, perform [.encode model cmd p0 p1 payload, .reset] s = .next t ∧
      perform [.reset, .encode model cmd p0 p1 payload] s = .next t)

/-- Rule R193: RESET before the byte, and the byte starts the new stream; the byte before RESET, and
it is examined, and what it left in the buffer is discarded. The two orders differ. -/
def Obligations.ResetAndRxPushOrders : Prop :=
  (∀ (b : Byte) (s : State), 1 ≤ s.rbCap →
    perform [.reset, .rxPush b] s = .next (if b = 0xDA then { s with rb := [0xDA] }
      else { s with rb := [], rxOut := s.rxOut ++ [.diag (.badMagic b)] })) ∧
  (∀ (b : Byte) (s : State), ∃ t, exec (.rxPush b) s = .next t ∧
    perform [.rxPush b, .reset] s = .next { t with rb := [] }) ∧
  (∃ (b : Byte) (s t u : State), s.Inv ∧ perform [.reset, .rxPush b] s = .next t ∧
    perform [.rxPush b, .reset] s = .next u ∧ t ≠ u)

/-- Rule R162: every operation that a listing can hold, the environment's RX_PUSH, RESET and ENCODE
among them, and a corrupt candidate too, completes in every state, and no state makes a step
fault. -/
def Obligations.EveryOperationCompletes : Prop :=
  (∀ (i : Instr) (s : State), i.listable = true → ∃ t, exec i s = .next t) ∧
  (∀ (s : State) (r : Fault), step s ≠ .fault r)
end

