-- ==== Sys2Proof/Laws/Operands.lean ====
section
/-! SUPPORT. The small lemmas of the operand forms (rules R12, R60 and R62) and of the XOR fold
(rule R90). -/

namespace Sys2Proof.Machine

section bytes

variable (xs ys : List Byte) (x : Byte) (i j : Nat)

@[simp] theorem byteAt_cons_zero : byteAt (x :: xs) 0 = x := rfl

@[simp] theorem byteAt_cons_succ : byteAt (x :: xs) (i + 1) = byteAt xs i := by
  simp [byteAt]

theorem byteAt_append_left (h : i < xs.length) : byteAt (xs ++ ys) i = byteAt xs i := by
  simp [byteAt, List.getElem?_append_left h]

theorem byteAt_take (h : i < j) : byteAt (xs.take j) i = byteAt xs i := by
  simp [byteAt, h]

theorem slice_length (h : j ≤ xs.length) : (slice xs i j).length = j - i := by
  simp [slice, h]

theorem slice_append_left (h : j ≤ xs.length) : slice (xs ++ ys) i j = slice xs i j := by
  simp [slice, List.take_append_of_le_length h]

end bytes

section length_field

/-- Rule R62: reading the two bytes that were written gives the length back. -/
@[simp] theorem lenOf_lenLo_lenHi (n : Len) : lenOf (lenLo n) (lenHi n) = n := by
  apply BitVec.eq_of_getLsbD_eq
  intro k hk
  simp only [lenOf, lenLo, lenHi, BitVec.getLsbD_or, BitVec.getLsbD_setWidth,
    BitVec.getLsbD_shiftLeft, BitVec.getLsbD_extractLsb']
  rcases Nat.lt_or_ge k 8 with h | h
  · simp [h, hk]
  · have h8 : k - 8 < 8 := by omega
    simp [hk, Nat.not_lt.mpr h, h8, Nat.add_sub_cancel' h]
    omega

/-- Rule R62: the low byte is the one read first. -/
@[simp] theorem lenLo_lenOf (lo hi : Byte) : lenLo (lenOf lo hi) = lo := by
  apply BitVec.eq_of_getLsbD_eq
  intro k hk
  simp [lenOf, lenLo, hk, show k < 16 by omega]

@[simp] theorem lenHi_lenOf (lo hi : Byte) : lenHi (lenOf lo hi) = hi := by
  apply BitVec.eq_of_getLsbD_eq
  intro k hk
  simp [lenOf, lenHi, hk, show 8 + k < 16 by omega]

/-- Rule R61: a payload that fits is counted exactly. -/
theorem payloadLen_toNat {payload : List Byte} (h : payload.length ≤ 65535) :
    (payloadLen payload).toNat = payload.length := by
  simp [payloadLen, Nat.mod_eq_of_lt (show payload.length < 65536 by omega)]

theorem payloadLen_of_length {payload : List Byte} {n : Len} (h : payload.length = n.toNat) :
    payloadLen payload = n := by
  simp [payloadLen, h]

end length_field

section splitting

theorem splitExact_append (xs rest : List Byte) :
    splitExact xs.length (xs ++ rest) = some (xs, rest) := by
  induction xs with
  | nil => cases rest <;> rfl
  | cons x xs ih => simp [splitExact, ih]

theorem splitExact_some {n : Nat} {bs xs rest : List Byte} :
    splitExact n bs = some (xs, rest) → bs = xs ++ rest ∧ xs.length = n := by
  induction n generalizing bs xs with
  | zero =>
    intro h
    simp only [splitExact, Option.some.injEq, Prod.mk.injEq] at h
    obtain ⟨rfl, rfl⟩ := h
    exact ⟨rfl, rfl⟩
  | succ n ih =>
    intro h
    cases bs with
    | nil => simp [splitExact] at h
    | cons b bs =>
      simp only [splitExact, Option.map_eq_some_iff, Prod.mk.injEq] at h
      obtain ⟨⟨ys, r⟩, hsplit, rfl, rfl⟩ := h
      obtain ⟨rfl, rfl⟩ := ih hsplit
      exact ⟨rfl, rfl⟩

end splitting

section layout

variable (len : Len) (model cmd p0 p1 chk : Byte) (payload : List Byte)

@[simp] theorem wireBytes_length :
    (wireBytes len model cmd p0 p1 chk payload).length = 8 + payload.length := by
  simp [wireBytes]; omega

@[simp] theorem declaredLen_wireBytes (rest : List Byte) :
    declaredLen (wireBytes len model cmd p0 p1 chk payload ++ rest) = len := by
  simp [declaredLen, wireBytes, byteAt]

end layout

section folding

/-- Rule R90: the fold from any accumulator is the accumulator XOR the fold. -/
theorem foldl_xor_eq (acc : Byte) (bytes : List Byte) :
    bytes.foldl (fun a b => a ^^^ b) acc = acc ^^^ xorFold bytes := by
  induction bytes generalizing acc with
  | nil => simp [xorFold]
  | cons b bs ih =>
    simp only [xorFold, List.foldl_cons] at ih ⊢
    rw [ih, ih (0x00 ^^^ b)]
    simp [BitVec.xor_assoc]

@[simp] theorem xorFold_nil : xorFold [] = 0x00 := rfl

@[simp] theorem xorFold_cons (b : Byte) (bytes : List Byte) :
    xorFold (b :: bytes) = b ^^^ xorFold bytes := by
  simp only [xorFold, List.foldl_cons]
  rw [foldl_xor_eq]
  simp [xorFold]

end folding

end Sys2Proof.Machine
end

