-- ==== Sys2Proof/Laws/State.lean ====
section
/-! SUPPORT. One lemma for each field and each update of the state, and for each history and each
update, so that no proof unfolds a record update. -/

namespace Sys2Proof.Machine

variable (s : State)

section appendByte

@[simp] theorem State.appendByte_rb (b : Byte) : (s.appendByte b).rb = s.rb ++ [b] := rfl
@[simp] theorem State.appendByte_rbCap (b : Byte) : (s.appendByte b).rbCap = s.rbCap := rfl
@[simp] theorem State.appendByte_rxOut (b : Byte) : (s.appendByte b).rxOut = s.rxOut := rfl
@[simp] theorem State.appendByte_tx (b : Byte) : (s.appendByte b).tx = s.tx := rfl
@[simp] theorem State.appendByte_listing (b : Byte) : (s.appendByte b).listing = s.listing := rfl
@[simp] theorem State.appendByte_returned (b : Byte) : (s.appendByte b).returned = s.returned := rfl
@[simp] theorem State.appendByte_invoker (b : Byte) : (s.appendByte b).invoker = s.invoker := rfl

end appendByte

section consume

@[simp] theorem State.consume_rb (k : Nat) : (s.consume k).rb = s.rb.drop k := rfl
@[simp] theorem State.consume_rbCap (k : Nat) : (s.consume k).rbCap = s.rbCap := rfl
@[simp] theorem State.consume_rxOut (k : Nat) : (s.consume k).rxOut = s.rxOut := rfl
@[simp] theorem State.consume_tx (k : Nat) : (s.consume k).tx = s.tx := rfl
@[simp] theorem State.consume_listing (k : Nat) : (s.consume k).listing = s.listing := rfl
@[simp] theorem State.consume_returned (k : Nat) : (s.consume k).returned = s.returned := rfl
@[simp] theorem State.consume_invoker (k : Nat) : (s.consume k).invoker = s.invoker := rfl

end consume

section clearRb

@[simp] theorem State.clearRb_rb : (s.clearRb).rb = [] := rfl
@[simp] theorem State.clearRb_rbCap : (s.clearRb).rbCap = s.rbCap := rfl
@[simp] theorem State.clearRb_rxOut : (s.clearRb).rxOut = s.rxOut := rfl
@[simp] theorem State.clearRb_tx : (s.clearRb).tx = s.tx := rfl
@[simp] theorem State.clearRb_listing : (s.clearRb).listing = s.listing := rfl
@[simp] theorem State.clearRb_returned : (s.clearRb).returned = s.returned := rfl
@[simp] theorem State.clearRb_invoker : (s.clearRb).invoker = s.invoker := rfl

end clearRb

section emitFo

@[simp] theorem State.emitFo_rb (f : Frame) : (s.emitFo f).rb = s.rb := rfl
@[simp] theorem State.emitFo_rbCap (f : Frame) : (s.emitFo f).rbCap = s.rbCap := rfl
@[simp] theorem State.emitFo_rxOut (f : Frame) : (s.emitFo f).rxOut = s.rxOut ++ [.frame f] := rfl
@[simp] theorem State.emitFo_tx (f : Frame) : (s.emitFo f).tx = s.tx := rfl
@[simp] theorem State.emitFo_listing (f : Frame) : (s.emitFo f).listing = s.listing := rfl
@[simp] theorem State.emitFo_returned (f : Frame) : (s.emitFo f).returned = s.returned := rfl
@[simp] theorem State.emitFo_invoker (f : Frame) : (s.emitFo f).invoker = s.invoker := rfl

end emitFo

section emitDiag

@[simp] theorem State.emitDiag_rb (e : DiagEvent) : (s.emitDiag e).rb = s.rb := rfl
@[simp] theorem State.emitDiag_rbCap (e : DiagEvent) : (s.emitDiag e).rbCap = s.rbCap := rfl
@[simp] theorem State.emitDiag_rxOut (e : DiagEvent) : (s.emitDiag e).rxOut = s.rxOut ++ [.diag e] := rfl
@[simp] theorem State.emitDiag_tx (e : DiagEvent) : (s.emitDiag e).tx = s.tx := rfl
@[simp] theorem State.emitDiag_listing (e : DiagEvent) : (s.emitDiag e).listing = s.listing := rfl
@[simp] theorem State.emitDiag_returned (e : DiagEvent) : (s.emitDiag e).returned = s.returned := rfl
@[simp] theorem State.emitDiag_invoker (e : DiagEvent) : (s.emitDiag e).invoker = s.invoker := rfl

end emitDiag

section emitTx

@[simp] theorem State.emitTx_rb (bs : List Byte) : (s.emitTx bs).rb = s.rb := rfl
@[simp] theorem State.emitTx_rbCap (bs : List Byte) : (s.emitTx bs).rbCap = s.rbCap := rfl
@[simp] theorem State.emitTx_rxOut (bs : List Byte) : (s.emitTx bs).rxOut = s.rxOut := rfl
@[simp] theorem State.emitTx_tx (bs : List Byte) : (s.emitTx bs).tx = s.tx ++ bs := rfl
@[simp] theorem State.emitTx_listing (bs : List Byte) : (s.emitTx bs).listing = s.listing := rfl
@[simp] theorem State.emitTx_returned (bs : List Byte) : (s.emitTx bs).returned = s.returned := rfl
@[simp] theorem State.emitTx_invoker (bs : List Byte) : (s.emitTx bs).invoker = s.invoker := rfl

end emitTx

section setReturned

@[simp] theorem State.setReturned_rb (r : ProcResult) : (s.setReturned r).rb = s.rb := rfl
@[simp] theorem State.setReturned_rbCap (r : ProcResult) : (s.setReturned r).rbCap = s.rbCap := rfl
@[simp] theorem State.setReturned_rxOut (r : ProcResult) : (s.setReturned r).rxOut = s.rxOut := rfl
@[simp] theorem State.setReturned_tx (r : ProcResult) : (s.setReturned r).tx = s.tx := rfl
@[simp] theorem State.setReturned_listing (r : ProcResult) : (s.setReturned r).listing = s.listing := rfl
@[simp] theorem State.setReturned_returned (r : ProcResult) : (s.setReturned r).returned = some r := rfl
@[simp] theorem State.setReturned_invoker (r : ProcResult) : (s.setReturned r).invoker = s.invoker := rfl

end setReturned

@[simp] theorem State.resetBlock_eq : resetBlock s = s.clearRb := rfl

section histories

@[simp] theorem State.appendByte_fo (b : Byte) : (s.appendByte b).fo = s.fo := rfl
@[simp] theorem State.consume_fo (k : Nat) : (s.consume k).fo = s.fo := rfl
@[simp] theorem State.clearRb_fo : s.clearRb.fo = s.fo := rfl
@[simp] theorem State.emitTx_fo (bs : List Byte) : (s.emitTx bs).fo = s.fo := rfl
@[simp] theorem State.setReturned_fo (r : ProcResult) : (s.setReturned r).fo = s.fo := rfl
@[simp] theorem State.emitFo_fo (f : Frame) : (s.emitFo f).fo = s.fo ++ [f] := by
  simp [State.fo, State.emitFo, RxOut.frame?]
@[simp] theorem State.emitDiag_fo (e : DiagEvent) : (s.emitDiag e).fo = s.fo := by
  simp [State.fo, State.emitDiag, RxOut.frame?]

@[simp] theorem State.appendByte_diag (b : Byte) : (s.appendByte b).diag = s.diag := rfl
@[simp] theorem State.consume_diag (k : Nat) : (s.consume k).diag = s.diag := rfl
@[simp] theorem State.clearRb_diag : s.clearRb.diag = s.diag := rfl
@[simp] theorem State.emitTx_diag (bs : List Byte) : (s.emitTx bs).diag = s.diag := rfl
@[simp] theorem State.setReturned_diag (r : ProcResult) : (s.setReturned r).diag = s.diag := rfl
@[simp] theorem State.emitFo_diag (f : Frame) : (s.emitFo f).diag = s.diag := by
  simp [State.diag, State.emitFo, RxOut.diag?]
@[simp] theorem State.emitDiag_diag (e : DiagEvent) : (s.emitDiag e).diag = s.diag ++ [e] := by
  simp [State.diag, State.emitDiag, RxOut.diag?]

end histories

section reset

variable (cap : Nat)

@[simp] theorem State.resetWith_rb : (State.resetWith cap).rb = [] := rfl
@[simp] theorem State.resetWith_rbCap : (State.resetWith cap).rbCap = cap := rfl
@[simp] theorem State.resetWith_rxOut : (State.resetWith cap).rxOut = [] := rfl
@[simp] theorem State.resetWith_tx : (State.resetWith cap).tx = [] := rfl
@[simp] theorem State.resetWith_listing : (State.resetWith cap).listing = [] := rfl
@[simp] theorem State.resetWith_returned : (State.resetWith cap).returned = none := rfl
@[simp] theorem State.resetWith_invoker : (State.resetWith cap).invoker = .environment := rfl

end reset

end Sys2Proof.Machine
end

