-- ==== Sys2Proof/Laws/Ops.lean ====
section
/-! SUPPORT. For each shared operation, what it can do, said once: proofs cite these instead of
unfolding the operation. -/

namespace Sys2Proof.Machine

section encoder

/-- Rule R94: what is sent is never empty, and at most one byte where the payload was empty. -/
theorem substituteEmpty_cases (payload : List Byte) :
    (payload = [] ∧ substituteEmpty payload = [0x00]) ∨
      (payload ≠ [] ∧ substituteEmpty payload = payload) := by
  unfold substituteEmpty
  split <;> simp_all [Config.emptySub]

theorem substituteEmpty_length (payload : List Byte) :
    (substituteEmpty payload).length = max 1 payload.length := by
  rcases substituteEmpty_cases payload with ⟨rfl, h⟩ | ⟨hne, h⟩
  · simp [h]
  · have := List.length_pos_iff.mpr hne
    rw [h]; omega

/-- Rules R93 and R95: an encode request is refused, or sends its frame and does nothing else. -/
theorem encodeAndSend_cases (model cmd p0 p1 : Byte) (payload : List Byte) (s : State) :
    (65535 < payload.length ∧
      encodeAndSend model cmd p0 p1 payload s = .refused .payloadTooLong) ∨
    (payload.length ≤ 65535 ∧
      encodeAndSend model cmd p0 p1 payload s
        = .next (s.emitTx (assembleFrame model cmd p0 p1 payload))) := by
  rcases Nat.lt_or_ge 65535 payload.length with h | h
  · exact .inl ⟨h, by simp [encodeAndSend, Config.maxPayload, h]⟩
  · exact .inr ⟨h, by simp [encodeAndSend, Config.maxPayload, Nat.not_lt.mpr h]⟩

end encoder

section decoder

/-- Rules R110 and R111: the five checks, in order, and what decides each answer. -/
theorem classify_cases (s : List Byte) :
    (s = [] ∧ classify s = .needMoreData) ∨
    (s ≠ [] ∧ byteAt s 0 ≠ Config.magic ∧ classify s = .resync .badMagic) ∨
    (s ≠ [] ∧ byteAt s 0 = Config.magic ∧ s.length < 8 ∧ classify s = .needMoreData) ∨
    (byteAt s 0 = Config.magic ∧ 8 ≤ s.length ∧ s.length < 8 + (declaredLen s).toNat ∧
      classify s = .needMoreData) ∨
    (byteAt s 0 = Config.magic ∧ 8 + (declaredLen s).toNat ≤ s.length ∧
      byteAt s 7 ≠ xorFold (slice s 8 (8 + (declaredLen s).toNat)) ∧
      classify s = .resync .badChecksum) ∨
    (byteAt s 0 = Config.magic ∧ 8 + (declaredLen s).toNat ≤ s.length ∧
      byteAt s 7 = xorFold (slice s 8 (8 + (declaredLen s).toNat)) ∧
      classify s = .decoded ⟨declaredLen s, byteAt s 3, byteAt s 4, byteAt s 5, byteAt s 6,
        byteAt s 7, slice s 8 (8 + (declaredLen s).toNat)⟩ (8 + (declaredLen s).toNat)) := by
  rcases Decidable.em (s = []) with rfl | hne
  · exact .inl ⟨rfl, rfl⟩
  have hpos : s.length ≠ 0 := by simpa using hne
  rcases Decidable.em (byteAt s 0 = Config.magic) with hmagic | hmagic
  swap
  · exact .inr (.inl ⟨hne, hmagic, by simp [classify, hne, hmagic]⟩)
  refine .inr (.inr ?_)
  rcases Nat.lt_or_ge s.length 8 with h8 | h8
  · exact .inl ⟨hne, hmagic, h8, by simp [classify, hne, hmagic, Config.hdrLen, h8]⟩
  refine .inr ?_
  have hn8 : ¬ s.length < 8 := Nat.not_lt.mpr h8
  rcases Nat.lt_or_ge s.length (8 + (declaredLen s).toNat) with hn | hn
  · exact .inl ⟨hmagic, h8, hn, by simp [classify, hne, hmagic, Config.hdrLen, hn8, hn]⟩
  refine .inr ?_
  have hnn : ¬ s.length < 8 + (declaredLen s).toNat := Nat.not_lt.mpr hn
  rcases Decidable.em (byteAt s 7 = xorFold (slice s 8 (8 + (declaredLen s).toNat))) with hc | hc
  · exact .inr ⟨hmagic, hn, hc, by simp [classify, hne, hmagic, Config.hdrLen, hn8, hnn, hc]⟩
  · exact .inl ⟨hmagic, hn, hc, by simp [classify, hne, hmagic, Config.hdrLen, hn8, hnn, hc]⟩

/-- Rule R115: the count of a `Decoded` answer lies inside the sequence and is at least 8. -/
theorem classify_decoded_bounds {s : List Byte} {f : Frame} {n : Nat}
    (h : classify s = .decoded f n) : 8 ≤ n ∧ n ≤ s.length := by
  rcases classify_cases s with ⟨_, e⟩ | ⟨_, _, e⟩ | ⟨_, _, _, e⟩ | ⟨_, _, _, e⟩ | ⟨_, _, _, e⟩ |
    ⟨_, hn, _, e⟩ <;> rw [e] at h <;> simp only [reduceCtorEq, DecodeResult.decoded.injEq] at h
  omega

/-- Rule R113: only a non-empty sequence is resynchronised. -/
theorem classify_resync_pos {s : List Byte} {c : Cause} (h : classify s = .resync c) :
    1 ≤ s.length := by
  cases s with
  | nil => simp [classify] at h
  | cons b bs => simp

end decoder

section decode_step

/-- Rule R140: DECODE_STEP's four cases. -/
theorem applyDecode_cases (s : State) :
    (classify s.rb = .needMoreData ∧ applyDecode s = (.done, s)) ∨
    (classify s.rb = .resync .badMagic ∧
      applyDecode s = (.more, (s.emitDiag (.badMagic (byteAt s.rb 0))).consume 1)) ∨
    (classify s.rb = .resync .badChecksum ∧
      applyDecode s = (.more, (s.emitDiag (.badChecksum (byteAt s.rb 7)
        (xorFold (slice s.rb 8 (8 + (declaredLen s.rb).toNat))))).consume 1)) ∨
    (∃ f n, classify s.rb = .decoded f n ∧ applyDecode s = (.more, (s.consume n).emitFo f)) := by
  unfold applyDecode
  rcases h : classify s.rb with _ | (_ | _) | ⟨f, n⟩ <;> simp [Config.hdrLen]

/-- Rule R140: DONE exactly at `NeedMoreData`, with the state unchanged. -/
theorem applyDecode_done {s t : State} (h : applyDecode s = (.done, t)) :
    t = s ∧ classify s.rb = .needMoreData := by
  rcases applyDecode_cases s with ⟨hc, e⟩ | ⟨_, e⟩ | ⟨_, e⟩ | ⟨f, n, _, e⟩ <;>
    rw [e] at h <;> simp_all

/-- Rule R142: a step that answers MORE removes at least one byte. -/
theorem applyDecode_more_shrinks {s t : State} (h : applyDecode s = (.more, t)) :
    t.rb.length < s.rb.length := by
  rcases applyDecode_cases s with ⟨_, e⟩ | ⟨hc, e⟩ | ⟨hc, e⟩ | ⟨f, n, hc, e⟩ <;>
    rw [e] at h <;> simp only [Prod.mk.injEq, reduceCtorEq, false_and, true_and] at h <;> subst h
  · have := classify_resync_pos hc
    simp; omega
  · have := classify_resync_pos hc
    simp; omega
  · have := classify_decoded_bounds hc
    simp; omega

/-- Rule R26: a DECODE_STEP leaves a suffix of the buffer. -/
theorem applyDecode_rb_suffix (s : State) : (applyDecode s).2.rb <:+ s.rb := by
  rcases applyDecode_cases s with ⟨_, e⟩ | ⟨_, e⟩ | ⟨_, e⟩ | ⟨f, n, _, e⟩ <;> rw [e]
  all_goals exact List.drop_suffix _ s.rb

/-- Rule R35: a DECODE_STEP touches `RB`, `FO` and `DIAG` only. -/
theorem applyDecode_frame (s : State) :
    (applyDecode s).2.rbCap = s.rbCap ∧ (applyDecode s).2.tx = s.tx ∧
      (applyDecode s).2.listing = s.listing ∧ (applyDecode s).2.returned = s.returned ∧
      (applyDecode s).2.invoker = s.invoker := by
  rcases applyDecode_cases s with ⟨_, e⟩ | ⟨_, e⟩ | ⟨_, e⟩ | ⟨f, n, _, e⟩ <;> rw [e] <;> simp

end decode_step

section drain

theorem drainLoop_succ (k : Nat) (s : State) :
    drainLoop (k + 1) s =
      if (applyDecode s).1 = .done then (applyDecode s).2 else drainLoop k (applyDecode s).2 := by
  rw [drainLoop]
  rcases h : applyDecode s with ⟨_ | _, t⟩ <;> simp

/-- Rule R142: any two fuels beyond the buffer's length give the same result. -/
theorem drainLoop_fuel_irrelevant (j : Nat) : ∀ {k : Nat} {s : State},
    s.rb.length < j → s.rb.length < k → drainLoop j s = drainLoop k s := by
  induction j with
  | zero => omega
  | succ j ih =>
    intro k s hj hk
    obtain ⟨k, rfl⟩ : ∃ m, k = m + 1 := ⟨k - 1, by omega⟩
    rw [drainLoop_succ, drainLoop_succ]
    rcases hs : applyDecode s with ⟨_ | _, t⟩
    · simp
    · have := applyDecode_more_shrinks hs
      simpa using ih (by omega) (by omega)

/-- Rule R141: DRAIN is DECODE_STEP, and DRAIN again where that answered MORE. -/
theorem drainAll_unfold (s : State) :
    drainAll s = if (applyDecode s).1 = .done then s else drainAll (applyDecode s).2 := by
  rw [drainAll, drainLoop_succ]
  rcases hs : applyDecode s with ⟨_ | _, t⟩
  · simp [(applyDecode_done hs).1]
  · have := applyDecode_more_shrinks hs
    simpa [drainAll] using drainLoop_fuel_irrelevant _ (by omega) (by omega)

theorem drainAll_of_done {s : State} (h : classify s.rb = .needMoreData) : drainAll s = s := by
  rw [drainAll_unfold, applyDecode, h]; simp

theorem drainAll_of_more {s t : State} (h : applyDecode s = (.more, t)) :
    drainAll s = drainAll t := by
  rw [drainAll_unfold, h]; simp

/-- The induction that DRAIN's loop gives: what holds of every state whose next step answers DONE,
and passes from the state after a MORE step to the state before it, holds of every state. -/
theorem drain_induction {motive : State → Prop}
    (done : ∀ s, classify s.rb = .needMoreData → motive s)
    (more : ∀ s t, applyDecode s = (.more, t) → motive t → motive s) (s : State) : motive s := by
  induction hn : s.rb.length using Nat.strong_induction_on generalizing s with
  | _ n ih =>
    rcases hs : applyDecode s with ⟨_ | _, t⟩
    · exact done s (applyDecode_done hs).2
    · exact more s t hs (ih _ (hn ▸ applyDecode_more_shrinks hs) t rfl)

/-- Rules R26 and R35: a DRAIN leaves a suffix of the buffer and touches `RB`, `FO` and `DIAG`
only. -/
theorem drainAll_frame (s : State) :
    (drainAll s).rb <:+ s.rb ∧ (drainAll s).rbCap = s.rbCap ∧ (drainAll s).tx = s.tx ∧
      (drainAll s).listing = s.listing ∧ (drainAll s).returned = s.returned ∧
      (drainAll s).invoker = s.invoker := by
  induction s using drain_induction with
  | done s h => simp [drainAll_of_done h, List.suffix_rfl]
  | more s t h ih =>
    rw [drainAll_of_more h]
    have hsuf := applyDecode_rb_suffix s
    have hframe := applyDecode_frame s
    rw [h] at hsuf hframe
    exact ⟨ih.1.trans hsuf, by simpa [ih] using hframe⟩

end drain

section receive

/-- Rule R150: the overflow policy fires exactly at a full buffer. -/
theorem makeRoom_cases (s : State) :
    (s.rb.length = s.rbCap ∧ makeRoom s = (s.emitDiag (.overflow s.rbCap)).clearRb) ∨
      (s.rb.length ≠ s.rbCap ∧ makeRoom s = s) := by
  unfold makeRoom
  split
  · exact .inl ⟨‹_›, rfl⟩
  · exact .inr ⟨‹_›, rfl⟩

theorem makeRoom_frame (s : State) :
    (makeRoom s).rbCap = s.rbCap ∧ (makeRoom s).tx = s.tx ∧
      (makeRoom s).listing = s.listing ∧ (makeRoom s).returned = s.returned ∧
      (makeRoom s).invoker = s.invoker := by
  rcases makeRoom_cases s with ⟨_, e⟩ | ⟨_, e⟩ <;> simp [e]

/-- Rule R144: what RX_PUSH leaves as it was. -/
theorem receiveByte_frame (b : Byte) (s : State) :
    (receiveByte b s).rbCap = s.rbCap ∧ (receiveByte b s).tx = s.tx ∧
      (receiveByte b s).listing = s.listing ∧ (receiveByte b s).returned = s.returned ∧
      (receiveByte b s).invoker = s.invoker := by
  have hdrain := drainAll_frame ((makeRoom s).appendByte b)
  have hroom := makeRoom_frame s
  simp only [State.appendByte_rbCap, State.appendByte_tx, State.appendByte_listing,
    State.appendByte_returned, State.appendByte_invoker] at hdrain
  simp [receiveByte, hdrain, hroom]

@[simp] theorem receiveChunk_nil (s : State) : receiveChunk [] s = s := rfl

@[simp] theorem receiveChunk_cons (b : Byte) (bs : List Byte) (s : State) :
    receiveChunk (b :: bs) s = receiveChunk bs (receiveByte b s) := rfl

/-- Rule R145: what a chunk leaves as it was. -/
theorem receiveChunk_frame (bs : List Byte) (s : State) :
    (receiveChunk bs s).rbCap = s.rbCap ∧ (receiveChunk bs s).tx = s.tx ∧
      (receiveChunk bs s).listing = s.listing ∧ (receiveChunk bs s).returned = s.returned ∧
      (receiveChunk bs s).invoker = s.invoker := by
  induction bs generalizing s with
  | nil => simp
  | cons b bs ih =>
    have h := receiveByte_frame b s
    simpa [h] using ih (receiveByte b s)

/-- Rules R61 and R145: a received frame is refused, or its bytes are pushed in order. -/
theorem receiveFrame_cases (model cmd p0 p1 chk : Byte) (payload : List Byte) (s : State) :
    (65535 < payload.length ∧
      receiveFrame model cmd p0 p1 chk payload s = .refused .payloadTooLong) ∨
    (payload.length ≤ 65535 ∧
      receiveFrame model cmd p0 p1 chk payload s = .next (receiveChunk
        (wireBytes (payloadLen payload) model cmd p0 p1 chk payload) s)) := by
  rcases Nat.lt_or_ge 65535 payload.length with h | h
  · exact .inl ⟨h, by simp [receiveFrame, Config.maxPayload, h]⟩
  · exact .inr ⟨h, by simp [receiveFrame, Config.maxPayload, Nat.not_lt.mpr h]⟩

end receive

end Sys2Proof.Machine
end

