-- ==== Sys2Proof/Laws/Buffer.lean ====
section
/-! SUPPORT. Every operation on the byte store keeps its bound `|RB| <= RB_CAP` (rule R25). -/

namespace Sys2Proof.Machine

theorem bufferFits_iff (s : State) : s.bufferFits = true ↔ s.rb.length ≤ s.rbCap := by
  simp [State.bufferFits]

theorem resetWith_bufferFits (cap : Nat) : (State.resetWith cap).bufferFits = true := by
  simp [bufferFits_iff]

theorem reset_bufferFits : State.reset.bufferFits = true := resetWith_bufferFits _

theorem clearRb_bufferFits (s : State) : s.clearRb.bufferFits = true := by
  simp [bufferFits_iff]

theorem consume_bufferFits {s : State} (k : Nat) (h : s.bufferFits = true) :
    (s.consume k).bufferFits = true := by
  rw [bufferFits_iff] at *
  simp; omega

theorem drainAll_bufferFits {s : State} (h : s.bufferFits = true) :
    (drainAll s).bufferFits = true := by
  rw [bufferFits_iff] at *
  have hframe := drainAll_frame s
  exact hframe.2.1 ▸ hframe.1.length_le.trans h

/-- Rule R150: after the overflow policy there is room for the arriving byte. -/
theorem makeRoom_appendByte_bufferFits {s : State} (b : Byte) (hcap : 1 ≤ s.rbCap)
    (h : s.bufferFits = true) : ((makeRoom s).appendByte b).bufferFits = true := by
  rw [bufferFits_iff] at *
  rcases makeRoom_cases s with ⟨_, e⟩ | ⟨_, e⟩ <;> simp [e] <;> omega

theorem receiveByte_bufferFits {s : State} (b : Byte) (hcap : 1 ≤ s.rbCap)
    (h : s.bufferFits = true) : (receiveByte b s).bufferFits = true :=
  drainAll_bufferFits (makeRoom_appendByte_bufferFits b hcap h)

theorem receiveChunk_bufferFits {s : State} (bs : List Byte) (hcap : 1 ≤ s.rbCap)
    (h : s.bufferFits = true) : (receiveChunk bs s).bufferFits = true := by
  induction bs generalizing s with
  | nil => exact h
  | cons b bs ih =>
    exact ih (by simpa [receiveByte_frame] using hcap) (receiveByte_bufferFits b hcap h)

end Sys2Proof.Machine
end

