-- ==== Sys2Proof/Laws/PerInstr.lean ====
section
/-! SUPPORT. The per-instruction family FetchLength: an operation's length, read from its id and
length field alone, is the length of its encoding, whatever follows it in the listing. -/

namespace Sys2Proof

/-- A listable FRAME, its checksum right or wrong, has a payload that the length field can count. -/
theorem Instr.fitsLength_of_listable_frame {model cmd p0 p1 chk : Byte} {payload : List Byte}
    (h : (Instr.frame model cmd p0 p1 chk payload).listable = true) : fitsLength payload = true := by
  simp only [Instr.listable, Instr.wf, Instr.corruptFrame, Bool.or_eq_true, Bool.and_eq_true] at h
  exact h.elim (·.1.1) (·.1)

/-- Only a FRAME can be listable without being well formed. -/
theorem Instr.listable_eq {i : Instr} (h : i.corruptFrame = false) : i.listable = i.wf := by
  simp [Instr.listable, h]

end Sys2Proof

namespace Sys2Proof.Laws.FetchLength

open Sys2Proof.Machine

def Statement (i : Instr) : Prop :=
  i.listable = true → ∀ rest, fetchLength (encode i ++ rest) = (encode i).length

theorem wireBytes_fetchLength (len : Len) (model cmd p0 p1 chk : Byte) (payload rest : List Byte) :
    fetchLength (wireBytes len model cmd p0 p1 chk payload ++ rest) = 8 + len.toNat := by
  have hmagic : byteAt (wireBytes len model cmd p0 p1 chk payload ++ rest) 0 = Config.magic := rfl
  simp [fetchLength, hmagic, Config.hdrLen]

theorem fitsLength_payload {payload : List Byte} (h : fitsLength payload = true) :
    (payloadLen payload).toNat = payload.length :=
  payloadLen_toNat (of_decide_eq_true h)

theorem frame (model cmd p0 p1 chk : Byte) (payload : List Byte) :
    Statement (.frame model cmd p0 p1 chk payload) := by
  intro h rest
  simp [encode, wireBytes_fetchLength, fitsLength_payload (Instr.fitsLength_of_listable_frame h)]

theorem streamEnable (p0 p1 : Byte) : Statement (.streamEnable p0 p1) := by
  intro _ rest
  simp [encode, wireBytes_fetchLength]

theorem streamDisable (p0 p1 : Byte) : Statement (.streamDisable p0 p1) := by
  intro _ rest
  simp [encode, wireBytes_fetchLength]

theorem identityRequest (p0 p1 : Byte) : Statement (.identityRequest p0 p1) := by
  intro _ rest
  simp [encode, wireBytes_fetchLength]

theorem telemetryReport (p0 p1 chk : Byte) (payload : List Byte) :
    Statement (.telemetryReport p0 p1 chk payload) := by
  intro h rest
  rw [Instr.listable_eq rfl] at h
  simp only [Instr.wf, Bool.and_eq_true, beq_iff_eq] at h
  simp [encode, wireBytes_fetchLength, payloadLen_toNat (payload := payload) (by omega)]

theorem identityResponse (cmd p0 p1 chk : Byte) (payload : List Byte) :
    Statement (.identityResponse cmd p0 p1 chk payload) := by
  intro h rest
  rw [Instr.listable_eq rfl] at h
  simp only [Instr.wf, Bool.and_eq_true] at h
  simp [encode, wireBytes_fetchLength, fitsLength_payload h.1.2]

theorem reset : Statement .reset := by
  intro _ rest
  simp [encode, fetchLength, Config.magic]

theorem rxPush (b : Byte) : Statement (.rxPush b) := by
  intro _ rest
  simp [encode, fetchLength, Config.magic]

/-- The name of the constructor, `encode`, is also the encoder's; the family's lemma is about the
constructor. -/
theorem encode (model cmd p0 p1 : Byte) (payload : List Byte) :
    Statement (.encode model cmd p0 p1 payload) := by
  intro h rest
  rw [Instr.listable_eq rfl] at h
  have hlen := fitsLength_payload (payload := payload) h
  simp [Sys2Proof.encode, fetchLength, Config.magic, byteAt, hlen]
  omega

theorem xorFold (bytes : List Byte) : Statement (.xorFold bytes) := by
  intro h rest
  rw [Instr.listable_eq rfl] at h
  have hlen := fitsLength_payload (payload := bytes) h
  simp [Sys2Proof.encode, fetchLength, Config.magic, byteAt, hlen]
  omega

/-- Three bytes hold every length below `2 ^ 24`. -/
theorem len24_ofNat {n : Nat} (h : n < 2 ^ 24) :
    len24 (BitVec.ofNat 8 n) (BitVec.ofNat 8 (n / 256)) (BitVec.ofNat 8 (n / 65536)) = n := by
  simp only [len24, BitVec.toNat_ofNat]
  omega

theorem tryDecodeOne (bytes : List Byte) : Statement (.tryDecodeOne bytes) := by
  intro h rest
  rw [Instr.listable_eq rfl] at h
  have hlen := len24_ofNat (n := bytes.length) (by simpa [Instr.wf] using h)
  simp [Sys2Proof.encode, fetchLength, Config.magic, byteAt, hlen]
  omega

theorem decodeStep : Statement .decodeStep := by
  intro _ rest
  simp [Sys2Proof.encode, fetchLength, Config.magic]

theorem drain : Statement .drain := by
  intro _ rest
  simp [Sys2Proof.encode, fetchLength, Config.magic]

end Sys2Proof.Laws.FetchLength
end

