-- ==== Sys2Proof/Laws/Step.lean ====
section
/-! SUPPORT. What taking an operation from the listing, and one transition, can do. -/

namespace Sys2Proof.Machine

/-- `fetch` answers the decoder's operation and takes exactly its bytes off the listing. -/
theorem fetch_cases (s : State) :
    (∃ i rest, decode s.listing = .ok (i, rest) ∧ fetch s = .ok (i, { s with listing := rest })) ∨
      (∃ e, decode s.listing = .error e ∧ fetch s = .error e) := by
  unfold fetch
  rcases h : decode s.listing with e | ⟨i, rest⟩
  · exact .inr ⟨e, rfl, rfl⟩
  · exact .inl ⟨i, rest, rfl, rfl⟩

/-- Rule R71: a procedure's test may invoke every operation. -/
@[simp] theorem mayInvoke_procedureTest (i : Instr) : mayInvoke .procedureTest i = true := rfl

/-- Rule R71: the environment may invoke what is not internal. -/
@[simp] theorem mayInvoke_environment (i : Instr) : mayInvoke .environment i = !isInternal i := rfl

/-- One transition is idle, performs the listed operation, is refused because the environment cannot
invoke it, or is refused for what is listed. -/
theorem step_cases (s : State) :
    (s.listing = [] ∧ step s = .next s) ∨
    (∃ i rest, s.listing ≠ [] ∧ decode s.listing = .ok (i, rest) ∧ mayInvoke s.invoker i = true ∧
      step s = exec i { s with listing := rest }) ∨
    (∃ i rest, s.listing ≠ [] ∧ decode s.listing = .ok (i, rest) ∧ mayInvoke s.invoker i = false ∧
      step s = .refused .internalOperation) ∨
    (∃ e, s.listing ≠ [] ∧ decode s.listing = .error e ∧ step s = .refused (refusalOf e)) := by
  rcases Decidable.em (s.listing = []) with h | h
  · exact .inl ⟨h, by simp [step, idle, h]⟩
  · rcases fetch_cases s with ⟨i, rest, hd, hf⟩ | ⟨e, hd, hf⟩
    · cases hm : mayInvoke s.invoker i
      · exact .inr (.inr (.inl ⟨i, rest, h, hd, hm, by simp [step, idle, h, hf, hm]⟩))
      · exact .inr (.inl ⟨i, rest, h, hd, hm, by simp [step, idle, h, hf, hm]⟩)
    · exact .inr (.inr (.inr ⟨e, h, hd, by simp [step, idle, h, hf]⟩))

/-- A run of one more step is one step and then the rest of the run, unless the step stops. -/
theorem run_succ_of_next (M : Host.Core) (k : Nat) (s t : M.State) (h : M.step s = .next t) :
    M.run (k + 1) s = M.run k t := by
  simp [Host.Core.run, h]

theorem core_run_succ_of_next (k : Nat) {s t : State} (h : step s = .next t) :
    Host.Core.run Sys2Proof.core (k + 1) s = Host.Core.run Sys2Proof.core k t :=
  run_succ_of_next Sys2Proof.core k s t h

theorem core_run_zero (s : State) : Host.Core.run Sys2Proof.core 0 s = .next s := rfl

end Sys2Proof.Machine
end

