-- ==== Sys2Proof/Machine/Consumer.lean ====
section
/-! DEFINITION. Interface information: how the frame consumer reads a payload (rules R79 to R83).
The consumer is outside the block (rule R4 (b)): no operation of the block calls anything here, and
rule R83 says nothing here feeds back. Text decoding of the identity fields is open (I3) and is
left out. -/

namespace Sys2Proof.Machine

/-- Rule R79, "uint32BE": four bytes from index `i`, the first the most significant. -/
def uint32BE (payload : List Byte) (i : Nat) : BitVec 32 :=
  byteAt payload i ++ byteAt payload (i + 1) ++ byteAt payload (i + 2) ++ byteAt payload (i + 3)

/-- Rule R79: `rawCurrent`; rule R80: `currentAmps` is this over 10000. -/
def rawCurrent (payload : List Byte) : BitVec 32 := uint32BE payload 0

/-- Rule R79: `rawVoltage`; rule R80: `voltageVolts` is this over 1000. -/
def rawVoltage (payload : List Byte) : BitVec 32 := uint32BE payload 4

/-- Rule R81: the raw bytes of the identity fields. `uid` is there only when `N >= 92`. -/
structure IdentityBytes where
  brand : List Byte
  model : List Byte
  hardwareVersion : List Byte
  firmwareVersion : List Byte
  uid : Option (List Byte)
  deriving DecidableEq, Repr

/-- Rules R81 and R82: the fields of an identity payload. -/
def identityBytes (payload : List Byte) : IdentityBytes :=
  { brand := slice payload 0 24, model := slice payload 24 48,
    hardwareVersion := slice payload 48 56, firmwareVersion := slice payload 56 64,
    uid := if 92 ≤ payload.length then some (slice payload 68 92) else none }

/-- Rules R79 to R83: what the consumer makes of a frame. -/
inductive ConsumerView where
  | telemetry (rawCurrent rawVoltage : BitVec 32)
  | identity (fields : IdentityBytes)
  | ignored
  deriving DecidableEq, Repr

/-- Rules R79, R81 and R83: the consumer's dispatch on `(model, cmd, N)`. -/
def consumerView (f : Frame) : ConsumerView :=
  if f.model = 0x04 ∧ f.cmd = 0x05 ∧ f.payload.length = 8 then
    .telemetry (rawCurrent f.payload) (rawVoltage f.payload)
  else if f.model = 0x01 ∧ 64 ≤ f.payload.length then .identity (identityBytes f.payload)
  else .ignored

end Sys2Proof.Machine
end

