-- ==== Sys2Proof/Tests/Slice0.lean ====
section
/-! SUPPORT. The model's own tests. Expected results are the vectors of spec/95_test_vectors.md
(named in each section) or words written out from rules R60, R76 to R78 and R88; the last section
shows, for each obligation with hypotheses, a state and operands that meet them. -/

namespace Sys2Proof.Tests

open Sys2Proof Sys2Proof.Machine

/-- The next state, where there is one. -/
def after (o : Host.Outcome State Fault Refusal) : Option State :=
  match o with
  | .next t => some t
  | _ => none

/-- The refusal, where there is one. -/
def refusal (o : Host.Outcome State Fault Refusal) : Option Refusal :=
  match o with
  | .refused r => some r
  | _ => none

/-- An instance of capacity `cap` that holds `rb` and has emitted nothing. -/
def holding (cap : Nat) (rb : List Byte) : State := { State.resetWith cap with rb := rb }

/-- What decoding answers, in a form that can be compared. -/
def decoded? (bs : List Byte) : Option (Instr × List Byte) :=
  match decode bs with
  | .ok r => some r
  | .error _ => none

def decodeError? (bs : List Byte) : Option ListingError :=
  match decode bs with
  | .ok _ => none
  | .error e => some e

/-! ### Well-formedness: an ill-formed term for each check -/

theorem test_wf_frame_bad_checksum : (Instr.frame 9 9 0 0 1 [2]).wf = false := by decide
theorem test_wf_frame_own_row_enable : (Instr.frame 4 5 0 0 0 [0]).wf = false := by decide
theorem test_wf_frame_own_row_disable : (Instr.frame 4 5 0 0 1 [1]).wf = false := by decide
theorem test_wf_frame_own_row_identity_request : (Instr.frame 1 4 0 0 0 [0]).wf = false := by decide
theorem test_wf_frame_own_row_telemetry :
    (Instr.frame 4 5 0 0 0 [0, 0, 0, 0, 0, 0, 0, 0]).wf = false := by decide
theorem test_wf_frame_own_row_identity_response :
    (Instr.frame 1 9 0 0 0 (List.replicate 64 0)).wf = false := by decide
theorem test_wf_telemetry_seven_bytes :
    (Instr.telemetryReport 0 0 0 [0, 0, 0, 0, 0, 0, 0]).wf = false := by decide
theorem test_wf_telemetry_bad_checksum :
    (Instr.telemetryReport 0 0 1 [0, 0, 0, 0, 0, 0, 0, 0]).wf = false := by decide
theorem test_wf_identity_63_bytes :
    (Instr.identityResponse 4 0 0 0 (List.replicate 63 0)).wf = false := by decide
theorem test_wf_identity_bad_checksum :
    (Instr.identityResponse 4 0 0 1 (List.replicate 64 0)).wf = false := by decide

theorem fitsLength_too_long : fitsLength (List.replicate 65536 0x55) = false := by
  rw [fitsLength, List.length_replicate]; rfl

theorem test_wf_frame_too_long (chk : Byte) :
    (Instr.frame 9 9 0 0 chk (List.replicate 65536 0x55)).wf = false := by
  simp only [Instr.wf, fitsLength_too_long, Bool.false_and]
theorem test_wf_identity_too_long (chk : Byte) :
    (Instr.identityResponse 4 0 0 chk (List.replicate 65536 0x55)).wf = false := by
  simp only [Instr.wf, fitsLength_too_long, Bool.and_false, Bool.false_and]
theorem test_wf_encode_too_long :
    (Instr.encode 7 7 0 0 (List.replicate 65536 0x55)).wf = false := fitsLength_too_long
theorem test_wf_xorFold_too_long :
    (Instr.xorFold (List.replicate 65536 0x55)).wf = false := fitsLength_too_long
theorem test_wf_tryDecodeOne_too_long {bytes : List Byte} (h : bytes.length = 2 ^ 24) :
    (Instr.tryDecodeOne bytes).wf = false :=
  decide_eq_false (h ▸ Nat.lt_irrefl _)

/-! ### Decoding: words written out from the spec's encodings -/

theorem test_decode_streamEnable : decoded? [0xDA, 1, 0, 4, 5, 0, 0, 0, 0]
    = some (.streamEnable 0 0, []) := by decide
theorem test_decode_streamDisable_params : decoded? [0xDA, 1, 0, 4, 5, 0x11, 0x22, 1, 1]
    = some (.streamDisable 0x11 0x22, []) := by decide
theorem test_decode_identityRequest : decoded? [0xDA, 1, 0, 1, 4, 0, 0, 0, 0]
    = some (.identityRequest 0 0, []) := by decide
/-- DC10 and DC11: two more bytes follow the frame. -/
theorem test_decode_telemetryReport :
    decoded? [0xDA, 8, 0, 4, 5, 0, 0, 0xDC, 0, 0, 0x27, 0x10, 0, 0, 3, 0xE8, 0xDA, 0]
    = some (.telemetryReport 0 0 0xDC [0, 0, 0x27, 0x10, 0, 0, 3, 0xE8], [0xDA, 0]) := by decide
/-- Rule R81 at its least length, 64. -/
theorem test_decode_identityResponse :
    decoded? ([0xDA, 64, 0, 1, 4, 0, 0, 7] ++ 7 :: List.replicate 63 0)
    = some (.identityResponse 4 0 0 7 (7 :: List.replicate 63 0), []) := by decide
/-- Rule R82: 63 payload bytes make a plain frame. -/
theorem test_decode_frame_model_one_short :
    decoded? ([0xDA, 63, 0, 1, 4, 0, 0, 0] ++ List.replicate 63 0)
    = some (.frame 1 4 0 0 0 (List.replicate 63 0), []) := by decide
/-- DC8. -/
theorem test_decode_frame_zero_length : decoded? [0xDA, 0, 0, 1, 2, 3, 4, 0]
    = some (.frame 1 2 3 4 0 [], []) := by decide
/-- P1: the listing `2 04 05 00 00 01 00 00`, then `1 DA`. -/
theorem test_decode_encode : decoded? [2, 4, 5, 0, 0, 1, 0, 0, 1, 0xDA]
    = some (.encode 4 5 0 0 [0], [1, 0xDA]) := by decide
/-- Rule R41: the second length byte is the more significant. -/
theorem test_decode_encode_length_order :
    decoded? ([2, 9, 9, 0, 0, 0, 1] ++ List.replicate 256 0 ++ [6])
    = some (.encode 9 9 0 0 (List.replicate 256 0), [6]) := by decide +kernel
theorem test_decode_rxPush : decoded? [1, 0xDA, 0] = some (.rxPush 0xDA, [0]) := by decide
theorem test_decode_reset : decoded? [0] = some (.reset, []) := by decide
theorem test_decode_xorFold : decoded? [3, 2, 0, 0xAA, 0xAB, 5]
    = some (.xorFold [0xAA, 0xAB], [5]) := by decide
theorem test_decode_tryDecodeOne : decoded? [4, 1, 0, 0, 0xDA, 6]
    = some (.tryDecodeOne [0xDA], [6]) := by decide
theorem test_decode_decodeStep : decoded? [5] = some (.decodeStep, []) := by decide
theorem test_decode_drain : decoded? [6] = some (.drain, []) := by decide

theorem test_decode_refuses_seven : decodeError? [7] = some .undefinedOp := by decide
theorem test_decode_refuses_eight : decodeError? [8] = some .notAnOperation := by decide
theorem test_decode_refuses_short : decodeError? [0xDA, 2, 0, 4, 5, 0, 0, 0, 0]
    = some .truncated := by decide
/-- DC17: rule R68 (b): not a frame of STREAM_ENABLE's row, but bytes that can arrive. -/
theorem test_decode_bad_checksum : decoded? [0xDA, 1, 0, 4, 5, 0, 0, 0, 1]
    = some (.frame 4 5 0 0 0 [1], []) := by decide

/-- The table's word of STREAM_ENABLE, bit 0 in the magic byte; its payload byte is above it. -/
theorem test_table_word_streamEnable :
    decodeTableWord 64 0x00000005040001DA = some (.streamEnable 0 0) := by decide
theorem test_table_word_drain : decodeTableWord 8 6 = some .drain := by decide
/-- The table's word of IDENTITY_RESPONSE with 64 in its length field. -/
theorem test_table_word_identityResponse :
    decodeTableWord 64 0x00000000010040DA
      = some (.identityResponse 0 0 0 0 (List.replicate 64 0)) := by decide

/-! ### XOR_FOLD (XF4, XF8) and TRY_DECODE_ONE (DC7, DC12, DC13, DC16) -/

theorem test_xorFold_general : (after (exec (.xorFold [0x12, 0x34, 0x56, 0x78]) .reset)).map
    (·.returned) = some (some (.fold 0x08)) := by decide
theorem test_xorFold_telemetry : xorFold [0, 0, 0x27, 0x10, 0, 0, 3, 0xE8] = 0xDC := by decide

/-- DC7: a large "length" behind another first byte is not waited for. -/
theorem test_classify_magic_first :
    classify [0, 0xFF, 0xFF, 0, 0, 0, 0, 0, 0, 0] = .resync .badMagic := by decide
theorem test_classify_incomplete :
    classify [0xDA, 8, 0, 4, 5, 0, 0, 0xDC, 0, 0, 0x27, 0x10] = .needMoreData := by decide
theorem test_classify_corrupt_payload :
    classify [0xDA, 8, 0, 4, 5, 0, 0, 0xDC, 0, 0, 0x28, 0x10, 0, 0, 3, 0xE8]
      = .resync .badChecksum := by decide
/-- DC16: a length one too large waits for one more byte. -/
theorem test_tryDecodeOne_long_length : (after (exec (.tryDecodeOne
      [0xDA, 9, 0, 4, 5, 0, 0, 0xDC, 0, 0, 0x27, 0x10, 0, 0, 3, 0xE8]) .reset)).map (·.returned)
    = some (some (.decodeResult .needMoreData)) := by decide
/-- DC18. -/
theorem test_tryDecodeOne_decoded :
    (after (exec (.tryDecodeOne [0xDA, 1, 0, 4, 5, 0, 0, 1, 1]) .reset)).map (·.returned)
    = some (some (.decodeResult (.decoded ⟨1, 4, 5, 0, 0, 1, [1]⟩ 9))) := by decide

/-! ### ENCODE and the request rows (EN2, EN3, EN5, EN6) -/

theorem test_streamDisable : (after (exec (.streamDisable 0 0) .reset)).map (·.tx)
    = some [0xDA, 1, 0, 4, 5, 0, 0, 1, 1] := by decide
theorem test_streamEnable_params : (after (exec (.streamEnable 0x11 0x22) .reset)).map (·.tx)
    = some [0xDA, 1, 0, 4, 5, 0x11, 0x22, 0, 0] := by decide
theorem test_identityRequest : (after (exec (.identityRequest 0 0) .reset)).map (·.tx)
    = some [0xDA, 1, 0, 1, 4, 0, 0, 0, 0] := by decide
theorem test_encode_cancellation :
    (after (exec (.encode 0x12 0x34 0 0 [1, 2, 3]) .reset)).map (·.tx)
    = some [0xDA, 3, 0, 0x12, 0x34, 0, 0, 0, 1, 2, 3] := by decide
/-- EN10. -/
theorem test_encode_too_long :
    exec (.encode 7 7 0 0 (List.replicate 65536 0x55)) .reset = .refused .payloadTooLong := by
  rw [exec, execEncode, encodeAndSend, List.length_replicate]; rfl
theorem test_encode_params :
    (after (exec (.encode 0xAB 0xCD 0x11 0x22 [0xFF]) .reset)).map (·.tx)
    = some [0xDA, 1, 0, 0xAB, 0xCD, 0x11, 0x22, 0xFF, 0xFF] := by decide

/-! ### The reassembly buffer (RA1, RA4, RA5, RA6, RA7, RA8, RA9, P5's 13th byte, P8) -/

theorem test_rxPush_noise : (after (exec (.rxPush 0) .reset)).map (fun t => (t.rb, t.diag))
    = some ([], [.badMagic 0]) := by decide
theorem test_rxPush_bad_checksum :
    (after (exec (.rxPush 1) (holding 65543 [0xDA, 1, 0, 4, 5, 0, 0, 0]))).map
      (fun t => (t.rb, t.fo, t.diag))
    = some ([], [], .badChecksum 0 1 :: [1, 0, 4, 5, 0, 0, 0, 1].map .badMagic) := by decide
theorem test_drain_noise_then_frame :
    (after (exec .drain (holding 65543 [0, 0xDA, 1, 0, 4, 5, 0, 0, 0, 0]))).map
      (fun t => (t.rb, t.rxOut))
    = some ([], [.diag (.badMagic 0), .frame ⟨1, 4, 5, 0, 0, 0, [0]⟩]) := by decide
theorem test_drain_waits : after (exec .drain (holding 65543 [0xDA, 1, 0, 4, 5, 0, 0, 0]))
    = some (holding 65543 [0xDA, 1, 0, 4, 5, 0, 0, 0]) := by decide
theorem test_decodeStep_one_byte :
    (after (exec .decodeStep (holding 65543 [0, 0xDA, 1, 0, 4, 5, 0, 0, 0, 0]))).map
      (fun t => (t.rb, t.rxOut, t.returned))
    = some ([0xDA, 1, 0, 4, 5, 0, 0, 0, 0], [.diag (.badMagic 0)], some (.signal .more)) := by
  decide
theorem test_rxPush_overflow :
    (after (exec (.rxPush 0xDA) (holding 16
      [0xDA, 0x20, 0, 0, 0, 0, 0, 0, 0xDA, 1, 0, 4, 5, 0, 0, 0]))).map (fun t => (t.rb, t.diag))
    = some ([0xDA], [.overflow 16]) := by decide
theorem test_overflow_noise :
    (receiveByte 0 (holding 16
      [0xDA, 0x20, 0, 0, 0, 0, 0, 0, 0xDA, 1, 0, 4, 5, 0, 0, 0])).diag
    = [.overflow 16, .badMagic 0] := by decide
theorem test_reset_discards : after (exec .reset (holding 65543 [0xDA, 1, 0]))
    = some (holding 65543 []) := by decide
/-- P5: the candidate completes, fails, and uncovers the start of the real frame. -/
theorem test_resync_uncovers_frame :
    (receiveByte 5 (holding 65543 [0xDA, 5, 0, 0, 0, 0, 0, 0, 0xDA, 1, 0, 4])).diag
      = .badChecksum 0 0xDA :: [5, 0, 0, 0, 0, 0, 0].map .badMagic ∧
    (receiveByte 5 (holding 65543 [0xDA, 5, 0, 0, 0, 0, 0, 0, 0xDA, 1, 0, 4])).rb
      = [0xDA, 1, 0, 4, 5] := by decide
/-- DC17's bytes as one listed FRAME: rule R68 (b), recovered inline. -/
theorem test_frame_bad_checksum :
    (after (step { State.reset with listing := [0xDA, 1, 0, 4, 5, 0, 0, 0, 1] })).map
      (fun t => (t.rb, t.fo, t.diag))
    = some ([], [], .badChecksum 0 1 :: [1, 0, 4, 5, 0, 0, 0, 1].map .badMagic) := by decide
/-- P8: a zero-length frame from the line, as one listed FRAME. -/
theorem test_frame_zero_length : (after (exec (.frame 1 2 3 4 0 []) .reset)).map
      (fun t => (t.rb, t.rxOut))
    = some ([], [.frame ⟨0, 1, 2, 3, 4, 0, []⟩]) := by decide
/-- DC10. -/
theorem test_telemetryReport :
    (after (exec (.telemetryReport 0 0 0xDC [0, 0, 0x27, 0x10, 0, 0, 3, 0xE8]) .reset)).map
      (·.rxOut)
    = some [.frame ⟨8, 4, 5, 0, 0, 0xDC, [0, 0, 0x27, 0x10, 0, 0, 3, 0xE8]⟩] := by decide
/-- A received identity response with the least payload, on a buffer that cannot hold its 72 bytes:
rule R152 (a). -/
theorem test_identityResponse_too_large_for_cap :
    (after (exec (.identityResponse 4 0 0 0 (List.replicate 64 0)) (holding 16 []))).map (·.fo)
    = some [] := by decide +kernel

/-! ### One step -/

theorem test_step_runs_table_word :
    (after (step (State.reset.withFetchWord 64 0x00000004010001DA))).map
      (fun t => (t.tx, t.listing))
    = some ([0xDA, 1, 0, 1, 4, 0, 0, 0, 0], []) := by decide
/-- Rule R71: the same id in the environment's listing and in a test of the procedure. -/
theorem test_step_environment_cannot_drain :
    refusal (step { holding 9 [0] with listing := [6] }) = some .internalOperation := by decide
theorem test_step_procedure_test_drains :
    (after (step ((holding 9 [0]).withFetchWord 8 6))).map (fun t => (t.rb, t.rxOut))
    = some ([], [.diag (.badMagic 0)]) := by decide
theorem test_step_refuses_seven :
    refusal (step { State.reset with listing := [7] }) = some .undefinedOp := by decide
theorem test_step_idle : after (step State.reset) = some State.reset := by decide

/-! ### The consumer's reading of a payload (W4, W5) -/

theorem test_consumer_telemetry :
    consumerView ⟨8, 4, 5, 0, 0, 0xDC, [0, 0, 0x27, 0x10, 0, 0, 3, 0xE8]⟩
    = .telemetry 10000 1000 := by decide
theorem test_consumer_brand :
    (identityBytes ([0x41, 0x43, 0x4D, 0x45] ++ List.replicate 88 0)).brand
    = [0x41, 0x43, 0x4D, 0x45] ++ List.replicate 20 0 := by decide

/-! ### Witnesses: the hypotheses of the obligations can be met -/

theorem witness_StartOfRunIsEmpty : ∃ cap, State.reset = State.resetWith cap := ⟨65543, rfl⟩
theorem witness_ResetOnlyEmptiesTheBuffer :
    (holding 1 []).rb = [] ∧ (holding 65543 [0xDA, 0x01, 0x00]).rb = [0xDA, 0x01, 0x00] ∧
    1 ≤ (holding 65543 [0xDA, 0x01, 0x00]).rbCap := by decide
theorem witness_StepPerformsTheListedOperation :
    decode ({ State.reset with listing := [1, 0xDA, 0] } : State).listing
      = .ok (.rxPush 0xDA, [0]) ∧
    decode ({ State.reset with listing := [6] } : State).listing = .ok (.drain, []) ∧
    State.reset.invoker = .environment ∧
    decode ({ State.reset with listing := [5], invoker := .procedureTest } : State).listing
      = .ok (.decodeStep, []) := ⟨rfl, rfl, rfl, rfl⟩
theorem witness_IdleStepHoldsTheState : State.reset.listing = [] := rfl
theorem witness_OperationIdSevenIsRefused :
    ({ State.reset with listing := [7, 0] } : State).listing = 7 :: [0] := rfl
theorem witness_DecodeReadsEveryEncoding :
    (Instr.frame 9 9 0 0 2 [2]).listable = true ∧ (Instr.frame 4 5 0 0 3 [3]).listable = true ∧
    (Instr.frame 4 5 0 0 0 [1]).listable = true ∧
    (Instr.streamEnable 1 2).listable = true ∧ (Instr.streamDisable 1 2).listable = true ∧
    (Instr.identityRequest 1 2).listable = true ∧
    (Instr.telemetryReport 0 0 0xDC [0, 0, 0x27, 0x10, 0, 0, 3, 0xE8]).listable = true ∧
    (Instr.identityResponse 4 0 0 0 (List.replicate 64 0)).listable = true ∧
    Instr.reset.listable = true ∧
    (Instr.rxPush 0xDA).listable = true ∧ (Instr.encode 1 4 0 0 []).listable = true ∧
    (Instr.xorFold []).listable = true ∧ (Instr.tryDecodeOne [0xDA]).listable = true ∧
    Instr.decodeStep.listable = true ∧ Instr.drain.listable = true := by decide
theorem witness_DecodedOperationsAreCanonical :
    decode [0xDA, 1, 0, 4, 5, 0, 0, 1, 1, 6] = .ok (.streamDisable 0 0, [6]) ∧
    decode [0xDA, 1, 0, 4, 5, 0, 0, 0, 1] = .ok (.frame 4 5 0 0 0 [1], []) := ⟨rfl, rfl⟩
theorem witness_HeaderWordHoldsTheHeader :
    8 ≤ ([0xDA, 1, 0, 4, 5, 0, 0, 1] : List Byte).length ∧ (0 : Nat) < 8 ∧ (7 : Nat) < 8 := by decide
theorem witness_ListingRunsItsOperations :
    (∀ i ∈ [Instr.reset, .rxPush 0xDA, .encode 1 4 0 0 [], .streamEnable 0 0, .frame 9 9 0 0 1 [2]],
      i.listable = true ∧ mayInvoke State.reset.invoker i = true) ∧
    (∀ i ∈ [Instr.xorFold [1], .decodeStep, .reset],
      i.listable = true ∧ mayInvoke .procedureTest i = true) := by
  decide
theorem witness_XorFoldAlgebra :
    ([1, 2] : List Byte).Perm [2, 1] ∧ 0 < ([1, 2] : List Byte).length ∧
    1 < ([1, 2] : List Byte).length ∧ (0 : Nat) ≠ 1 ∧ (3 : Byte) ≠ byteAt [1, 2] 1 :=
  ⟨.swap 2 1 [], by decide, by decide, by decide, by decide⟩
theorem longPayload_length : (List.replicate 65536 (0x55 : Byte)).length = 65536 :=
  List.length_replicate
theorem witness_EncodeSendsTheAssembledFrame :
    ([] : List Byte).length ≤ 65535 ∧ (List.replicate 65535 (0x55 : Byte)).length ≤ 65535 ∧
    65535 < (List.replicate 65536 (0x55 : Byte)).length := by
  simp only [List.length_replicate]; decide
theorem witness_EncodeNeverSendsAnEmptyPayload :
    (after (exec (.encode 1 4 0 0 []) State.reset)).isSome = true := by decide
theorem witness_EncodeOutputSize : ([1, 2, 3] : List Byte).length ≤ 65535 := by decide
theorem witness_EncodePassesParamsThrough :
    (after (exec (.encode 0xAB 0xCD 0x11 0x22 [0xFF]) State.reset)).isSome = true := by decide
theorem witness_DecoderReadsWhatEncodeSends : ([0xDA, 0xDA] : List Byte).length ≤ 65535 := by decide
theorem witness_NeedMoreDataCases :
    classify (holding 8 []).rb = .needMoreData ∧ classify (holding 8 [0xDA]).rb = .needMoreData ∧
    classify (holding 8 [0xDA, 0, 0, 0, 0, 0, 0]).rb = .needMoreData ∧
    classify (holding 8 [0xDA, 1, 0, 0, 0, 0, 0, 0]).rb = .needMoreData := by decide
theorem witness_BadMagicDropsOneByte :
    classify (holding 8 [0xDB]).rb = .resync .badMagic := by decide
theorem witness_BadChecksumDropsOneByte :
    classify (holding 8 [0xDA, 0, 0, 1, 2, 3, 4, 5]).rb = .resync .badChecksum := by decide
theorem witness_DecodedTakesExactlyTheFrame :
    classify (holding 8 [0xDA, 0, 0, 1, 2, 3, 4, 0]).rb
      = .decoded ⟨0, 1, 2, 3, 4, 0, []⟩ 8 := by decide
theorem witness_ZeroLengthFrames : (5 : Byte) ≠ 0 := by decide
theorem witness_RoutingBytesAreUnchecked :
    classify (0xDA :: 0 :: 0 :: 1 :: 2 :: 3 :: 4 :: 0 :: [])
      = .decoded ⟨0, 1, 2, 3, 4, 0, []⟩ 8 := by decide
theorem witness_AnswersAreStableUnderExtension :
    classify [0] ≠ .needMoreData ∧ classify [0xDA, 0, 0, 1, 2, 3, 4, 0] ≠ .needMoreData ∧
    classify [0xDA, 0, 0, 1, 2, 3, 4, 5] ≠ .needMoreData := by decide
/-- One pair of sequences for each clause. -/
theorem witness_BytesTheDecoderExamines :
    (byteAt [1] 0 = byteAt [1, 2] 0 ∧ byteAt [1] 0 ≠ 0xDA) ∧
    (([0xDA, 1] : List Byte).length = [0xDA, (2 : Byte)].length ∧ byteAt [0xDA, 1] 0 = 0xDA ∧
      byteAt [0xDA, 2] 0 = 0xDA) ∧
    (([0xDA, 1, 0, 0, 0, 0, 0, 0] : List Byte).take 3
        = ([0xDA, 1, 0, 9, 9, 9, 9, 9] : List Byte).take 3 ∧
      (8 : Nat) < 8 + (declaredLen [0xDA, 1, 0, 0, 0, 0, 0, 0]).toNat) ∧
    (([0xDA, 0, 0, 1, 2, 3, 4, 0] : List Byte).take 8
        = ([0xDA, 0, 0, 1, 2, 3, 4, 0, 9] : List Byte).take 8 ∧
      8 + (declaredLen [0xDA, 0, 0, 1, 2, 3, 4, 0]).toNat ≤ 8) ∧
    ([] : List Byte).length = 0 := by decide
theorem witness_OneCorruptPayloadByteIsDetected :
    ([0, 0x27] : List Byte).length ≤ 65535 ∧ 1 < ([0, 0x27] : List Byte).length ∧
    (0x28 : Byte) ≠ byteAt [0, 0x27] 1 := by decide
/-- A buffer for each of DECODE_STEP's four cases; the first is also DRAIN's. -/
theorem witness_DecodeStepAppliesOneResult :
    classify (holding 8 [0xDA]).rb = .needMoreData ∧
    classify (holding 8 [0x00]).rb = .resync .badMagic ∧
    classify (holding 8 [0xDA, 0, 0, 0, 0, 0, 0, 1]).rb = .resync .badChecksum ∧
    classify (holding 8 [0xDA, 0, 0, 0, 0, 0, 0, 0]).rb
      = .decoded ⟨0, 0, 0, 0, 0, 0, []⟩ 8 := by decide
theorem witness_DrainIsABoundedRunOfSteps :
    (applyDecode (holding 8 [0x00])).1 = .more := by decide
theorem witness_RxPushAppendsAndDrains :
    (holding 1 [0xDA]).rb.length = (holding 1 [0xDA]).rbCap ∧
    (holding 1 []).rb.length ≠ (holding 1 []).rbCap ∧ (holding 1 []).rb = [] ∧
    1 ≤ (holding 1 []).rbCap ∧ (0 : Byte) ≠ 0xDA ∧ (holding 9 []).rb = [] ∧
    9 ≤ (holding 9 []).rbCap := by decide
theorem witness_ReceivedRowsPushTheirBytes :
    (List.replicate 65535 (0x55 : Byte)).length ≤ 65535 ∧
    65535 < (List.replicate 65536 (0x55 : Byte)).length := by
  simp only [List.length_replicate]; decide
theorem witness_ReceivedFramesAreHandedOver :
    (holding 16 []).rb = [] ∧ (List.replicate 8 (0 : Byte)).length = 8 ∧
    8 + (List.replicate 8 (0 : Byte)).length ≤ (holding 16 []).rbCap ∧
    8 + (List.replicate 64 (0 : Byte)).length ≤ (holding 72 []).rbCap := by decide
theorem witness_CorruptFramesAreRecovered :
    (holding 9 []).rb = [] ∧ 8 + ([1] : List Byte).length ≤ (holding 9 []).rbCap ∧
    8 + ([] : List Byte).length ≤ (holding 8 []).rbCap ∧
    (0 : Byte) ≠ xorFold [1] ∧ (1 : Byte) ≠ xorFold [] := by decide
theorem witness_ChunkingInvariance :
    (holding 3 [0xDA]).Drained ∧
    (holding 3 [0xDA]).rb.length + ([0, 1] : List Byte).length ≤ (holding 3 [0xDA]).rbCap := by
  decide
theorem witness_ReachedFrameIsCompleted :
    (⟨1, 4, 5, 0, 0, 1, [1]⟩ : Frame).Sound ∧
    (⟨1, 4, 5, 0, 0, 1, [1]⟩ : Frame).wire.length ≤ (holding 9 [0xDA, 1, 0]).rbCap ∧
    3 < (⟨1, 4, 5, 0, 0, 1, [1]⟩ : Frame).wire.length ∧
    (holding 9 [0xDA, 1, 0]).rb = (⟨1, 4, 5, 0, 0, 1, [1]⟩ : Frame).wire.take 3 := by decide
theorem witness_NoiseIsDroppedByteByByte :
    (holding 1 []).rb = [] ∧ 1 ≤ (holding 1 []).rbCap ∧ ∀ b ∈ ([0, 0xDB] : List Byte), b ≠ 0xDA := by
  decide
/-- A whole frame may wait behind the candidate (program P5b). -/
theorem witness_IncompleteCandidateStalls :
    byteAt (holding 65543 [0xDA, 0x20, 0, 0, 0, 0, 0, 0]).rb 0 = 0xDA ∧
    8 ≤ (holding 65543 [0xDA, 0x20, 0, 0, 0, 0, 0, 0]).rb.length ∧
    (holding 65543 [0xDA, 0x20, 0, 0, 0, 0, 0, 0]).rb.length
        + ([0xDA, 1, 0, 4, 5, 0, 0, 0, 0] : List Byte).length
      < 8 + (declaredLen (holding 65543 [0xDA, 0x20, 0, 0, 0, 0, 0, 0]).rb).toNat ∧
    (holding 65543 [0xDA, 0x20, 0, 0, 0, 0, 0, 0]).rb.length
        + ([0xDA, 1, 0, 4, 5, 0, 0, 0, 0] : List Byte).length ≤ 65543 := by decide
theorem witness_OverflowPolicy :
    (holding 1 [0xDA]).rb.length = (holding 1 [0xDA]).rbCap ∧ 1 ≤ (holding 1 [0xDA]).rbCap ∧
    (holding 1 [0xDA]).rb.length ≤ (holding 1 [0xDA]).rbCap := by decide

/-- The frame of maximum length with a payload of zeros. -/
def maxZeroFrame : Frame := ⟨65535, 7, 7, 0, 0, 0, List.replicate 65535 0⟩

theorem xorFold_zeros (n : Nat) : xorFold (List.replicate n 0) = 0 := by
  induction n with
  | zero => rfl
  | succ n ih => rw [List.replicate_succ, xorFold_cons, ih]; rfl

theorem witness_OverflowNeverFiresAtMaxFrame :
    (State.reset.Inv ∧ 65543 ≤ State.reset.rbCap) ∧
    maxZeroFrame.Sound ∧ maxZeroFrame.len = 65535 ∧
    (holding 65542 (maxZeroFrame.wire.take 65542)).rbCap = 65542 ∧
    (holding 65542 (maxZeroFrame.wire.take 65542)).rb = maxZeroFrame.wire.take 65542 :=
  ⟨by decide, ⟨List.length_replicate, (xorFold_zeros 65535).symm⟩, rfl, rfl, rfl⟩

/-- A buffer of capacity 9, full with a candidate that needs 10; and one that a frame of 9 fits. -/
theorem witness_SmallCapacity :
    (holding 9 [0xDA, 1, 0, 4, 5, 0, 0, 0]).Inv ∧
    (∃ f, ((exec (.rxPush 0) (holding 9 [0xDA, 1, 0, 4, 5, 0, 0, 0])) |> after).map (·.rxOut)
      = some [.frame f]) ∧
    (holding 9 [0xDA, 2, 0, 4, 5, 0, 0, 0, 0]).Inv ∧
    (holding 9 [0xDA, 2, 0, 4, 5, 0, 0, 0, 0]).rb.length = 9 ∧
    (holding 1 [0xDA]).Inv ∧ (holding 1 [0xDA]).rb.length = (holding 1 [0xDA]).rbCap :=
  ⟨by decide, ⟨⟨1, 4, 5, 0, 0, 0, [0]⟩, by decide⟩, by decide, by decide, by decide, by decide⟩
theorem witness_EveryStepKeepsTheBufferDrained :
    ({ State.reset with listing := [1, 0xDA] } : State).Inv ∧
    (after (step { State.reset with listing := [1, 0xDA] })).isSome = true := by decide
theorem witness_DrainedBufferShapes : (holding 8 [0xDA]).Drained := by decide
theorem witness_EveryStepKeepsEmissionsSound :
    (∀ o ∈ State.reset.rxOut, o.Sound State.reset.rbCap) ∧
    (after (step { State.reset with listing := [1, 0] })).isSome = true :=
  ⟨fun _ ho => (nomatch ho), by decide⟩
/-- Each group of operations completes somewhere. -/
theorem witness_WhatEachOperationLeavesUnchanged :
    ∀ i ∈ [Instr.encode 1 4 0 0 [], .xorFold [1], .reset, .rxPush 0xDA, .frame 1 2 3 4 0 [],
      .drain, .decodeStep], (after (exec i State.reset)).isSome = true := by decide
theorem witness_HistoriesAreNeverRead :
    (holding 9 [0xDA]).rb = ({ holding 9 [0xDA] with tx := [1] } : State).rb ∧
    (holding 9 [0xDA]).rbCap = ({ holding 9 [0xDA] with tx := [1] } : State).rbCap ∧
    (after (exec (.rxPush 0) (holding 9 [0xDA]))).isSome = true := by decide
theorem witness_TransmitCommutesWithReceiveAndReset : ([] : List Byte).length ≤ 65535 := by decide
theorem witness_ResetAndRxPushOrders : 1 ≤ (holding 1 [0xDA]).rbCap := by decide
theorem witness_EveryOperationCompletes : (Instr.encode 1 4 0 0 []).listable = true := by decide

end Sys2Proof.Tests
end

section
/-! PROOFS. The buffer between two transitions, and the encoder's lack of state (spec/10_state.md
rules R27 to R29). -/

namespace Sys2Proof.Machine

/-! ### What a drained buffer looks like (rule R28) -/

/-- Rules R28 and R112: `NeedMoreData` is the answer exactly at the three shapes. -/
theorem classify_eq_needMoreData_iff (rb : List Byte) :
    classify rb = .needMoreData ↔ DrainedShape rb := by
  constructor
  · intro h
    rcases classify_cases rb with ⟨hnil, _⟩ | ⟨_, _, e⟩ | ⟨hne, hmagic, hlt, _⟩ |
      ⟨hmagic, hge, hlt, _⟩ | ⟨_, _, _, e⟩ | ⟨_, _, _, e⟩
    case inl => exact .inl hnil
    case inr.inr.inl =>
      exact .inr (.inl ⟨hmagic, List.length_pos_iff.mpr hne, Nat.le_of_lt_succ hlt⟩)
    case inr.inr.inr.inl => exact .inr (.inr ⟨hmagic, hge, hlt⟩)
    all_goals rw [e] at h; cases h
  · rintro (rfl | ⟨hmagic, hpos, hle⟩ | ⟨hmagic, hge, hlt⟩)
    · rfl
    · have hne : rb ≠ [] := List.length_pos_iff.mp hpos
      simp [classify, Config.hdrLen, hne, hmagic, Nat.lt_succ_of_le hle]
    · have hne : rb ≠ [] := List.length_pos_iff.mp (by omega)
      simp [classify, Config.hdrLen, hne, hmagic, hlt]

/-- A 16-bit length field cannot announce more than 65535 payload bytes. -/
theorem DrainedShape.length_le {rb : List Byte} (h : DrainedShape rb) : rb.length ≤ 65542 := by
  have hfield : (declaredLen rb).toNat < 65536 := (declaredLen rb).isLt
  rcases h with rfl | ⟨_, _, hle⟩ | ⟨_, _, hlt⟩
  · simp
  · omega
  · omega

/-- Settles O53: the decoder's answer decides the shape, and the length field bounds it. -/
theorem drainedBufferShapes : Obligations.DrainedBufferShapes := by
  refine ⟨fun s => classify_eq_needMoreData_iff s.rb,
    fun s h => ((classify_eq_needMoreData_iff s.rb).mp h).length_le, fun rb => ⟨?_, ?_, by omega⟩⟩
  all_goals
    rintro ⟨rfl, hlen⟩
    simp at hlen

/-! ### What an operation does to the buffer -/

/-- Rules R26 and R35: all that an operation performed in `s` can have done to the buffer of the
state `t` that it gives. -/
inductive BufferEffect (s t : State) : Prop where
  | kept (h : t.rb = s.rb)
  | cleared (h : t.rb = [])
  | received (bs : List Byte) (h : t.rb = (receiveChunk bs s).rb)
  | stepped (h : t.rb = (applyDecode s).2.rb)
  | drained (h : t.rb = (drainAll s).rb)

/-- Rule R76: STREAM_ENABLE is the encoder's request. -/
theorem exec_streamEnable (p0 p1 : Byte) (s : State) :
    exec (.streamEnable p0 p1) s = encodeAndSend 0x04 0x05 p0 p1 [0x00] s := rfl

/-- Rule R77: STREAM_DISABLE is the encoder's request. -/
theorem exec_streamDisable (p0 p1 : Byte) (s : State) :
    exec (.streamDisable p0 p1) s = encodeAndSend 0x04 0x05 p0 p1 [0x01] s := rfl

/-- Rule R78: IDENTITY_REQUEST is the encoder's request. -/
theorem exec_identityRequest (p0 p1 : Byte) (s : State) :
    exec (.identityRequest p0 p1) s = encodeAndSend 0x01 0x04 p0 p1 [] s := rfl

/-- Rules R29 and R93: a request that is sent leaves the capacity and the buffer alone. -/
theorem encodeAndSend_bufferEffect {model cmd p0 p1 : Byte} {payload : List Byte} {s t : State}
    (h : encodeAndSend model cmd p0 p1 payload s = .next t) :
    t.rbCap = s.rbCap ∧ BufferEffect s t := by
  rcases encodeAndSend_cases model cmd p0 p1 payload s with ⟨_, e⟩ | ⟨_, e⟩ <;> rw [e] at h
  · cases h
  · cases h
    exact ⟨rfl, .kept rfl⟩

/-- Rule R145: a received frame is a chunk. -/
theorem receiveFrame_bufferEffect {model cmd p0 p1 chk : Byte} {payload : List Byte} {s t : State}
    (h : receiveFrame model cmd p0 p1 chk payload s = .next t) :
    t.rbCap = s.rbCap ∧ BufferEffect s t := by
  rcases receiveFrame_cases model cmd p0 p1 chk payload s with ⟨_, e⟩ | ⟨_, e⟩ <;> rw [e] at h
  · cases h
  · cases h
    exact ⟨(receiveChunk_frame _ s).1, .received _ rfl⟩

/-- Rules R23 and R35: no operation writes the capacity, and each has one of the five effects on the
buffer. -/
theorem exec_bufferEffect {i : Instr} {s t : State} (h : exec i s = .next t) :
    t.rbCap = s.rbCap ∧ BufferEffect s t := by
  cases i with
  | streamEnable p0 p1 => exact encodeAndSend_bufferEffect (exec_streamEnable p0 p1 s ▸ h)
  | streamDisable p0 p1 => exact encodeAndSend_bufferEffect (exec_streamDisable p0 p1 s ▸ h)
  | identityRequest p0 p1 => exact encodeAndSend_bufferEffect (exec_identityRequest p0 p1 s ▸ h)
  | encode => exact encodeAndSend_bufferEffect h
  | frame | telemetryReport | identityResponse => exact receiveFrame_bufferEffect h
  | xorFold | tryDecodeOne => cases h; exact ⟨rfl, .kept rfl⟩
  | reset => cases h; exact ⟨rfl, .cleared rfl⟩
  | rxPush b => cases h; exact ⟨(receiveByte_frame b s).1, .received [b] rfl⟩
  | decodeStep => cases h; exact ⟨(applyDecode_frame s).1, .stepped rfl⟩
  | drain => cases h; exact ⟨(drainAll_frame s).2.1, .drained rfl⟩

/-! ### The invariant between transitions (rules R25 and R27) -/

/-- The invariant speaks of the buffer and the capacity alone. -/
theorem State.Inv.congr {s t : State} (h : s.Inv) (hrb : t.rb = s.rb) (hcap : t.rbCap = s.rbCap) :
    t.Inv := by
  obtain ⟨hpos, hfits, hdrained⟩ := h
  refine ⟨hcap ▸ hpos, ?_, ?_⟩
  · rw [bufferFits_iff] at hfits ⊢
    rwa [hrb, hcap]
  · rwa [State.Drained, hrb]

/-- An empty buffer meets the invariant at every capacity the spec admits (rule R9). -/
theorem State.inv_of_rb_nil {s : State} (hcap : 1 ≤ s.rbCap) (h : s.rb = []) : s.Inv :=
  ⟨hcap, by simp [bufferFits_iff, h], by rw [State.Drained, h]; rfl⟩

/-- Rules R141 and R143: DRAIN ends only where the decoder waits for more bytes. -/
theorem drainAll_drained (s : State) : (drainAll s).Drained := by
  induction s using drain_induction with
  | done s h => rwa [drainAll_of_done h]
  | more s t h ih => rwa [drainAll_of_more h]

/-- The invariant needs only the bound before an RX_PUSH: its DRAIN does the rest. -/
theorem receiveByte_inv {s : State} (b : Byte) (hcap : 1 ≤ s.rbCap) (h : s.bufferFits = true) :
    (receiveByte b s).Inv :=
  ⟨(receiveByte_frame b s).1.symm ▸ hcap, receiveByte_bufferFits b hcap h, drainAll_drained _⟩

theorem receiveChunk_inv {s : State} (bs : List Byte) (h : s.Inv) : (receiveChunk bs s).Inv := by
  induction bs generalizing s with
  | nil => exact h
  | cons b bs ih => exact ih (receiveByte_inv b h.1 h.2.1)

/-- A DECODE_STEP in a drained state answers DONE and does nothing. -/
theorem applyDecode_of_drained {s : State} (h : s.Drained) : applyDecode s = (.done, s) := by
  rw [applyDecode, h]

/-- Each of the five effects on the buffer keeps the invariant. -/
theorem BufferEffect.inv {s t : State} (e : BufferEffect s t) (hcap : t.rbCap = s.rbCap)
    (h : s.Inv) : t.Inv := by
  have ⟨hpos, _, hdrained⟩ := h
  cases e with
  | kept hrb => exact h.congr hrb hcap
  | cleared hrb => exact State.inv_of_rb_nil (hcap ▸ hpos) hrb
  | received bs hrb =>
    exact (receiveChunk_inv bs h).congr hrb (hcap.trans (receiveChunk_frame bs s).1.symm)
  | stepped hrb => exact h.congr (by rw [hrb, applyDecode_of_drained hdrained]) hcap
  | drained hrb => exact h.congr (by rw [hrb, drainAll_of_done hdrained]) hcap

theorem exec_inv {i : Instr} {s t : State} (hs : s.Inv) (h : exec i s = .next t) : t.Inv :=
  have ⟨hcap, e⟩ := exec_bufferEffect h
  e.inv hcap hs

/-- Settles O51: a transition is idle or performs one operation, whose effect on the buffer keeps the
invariant. -/
theorem everyStepKeepsTheBufferDrained : Obligations.EveryStepKeepsTheBufferDrained := by
  refine ⟨fun cap hcap => State.inv_of_rb_nil hcap rfl, fun s t hs h => ?_⟩
  rcases step_cases s with ⟨_, e⟩ | ⟨i, rest, _, _, _, e⟩ | ⟨_, _, _, _, _, e⟩ | ⟨_, _, _, e⟩ <;>
    rw [e] at h
  · cases h
    exact ⟨hs, rfl⟩
  · have hfetched : State.Inv { s with listing := rest } := hs.congr rfl rfl
    exact ⟨exec_inv hfetched h, (exec_bufferEffect h).1⟩
  · cases h
  · cases h

/-! ### The encoder (rule R29) -/

/-- Rule R93: an ENCODE of a countable payload sends the assembled frame, whatever the state. -/
theorem exec_encode_of_le {payload : List Byte} (h : payload.length ≤ 65535)
    (model cmd p0 p1 : Byte) (s : State) : exec (.encode model cmd p0 p1 payload) s
      = .next (s.emitTx (assembleFrame model cmd p0 p1 payload)) := by
  rcases encodeAndSend_cases model cmd p0 p1 payload s with ⟨hlt, _⟩ | ⟨_, e⟩
  · omega
  · exact e

/-- Rule R95: an ENCODE of a longer payload is refused, whatever the state. -/
theorem exec_encode_of_lt {payload : List Byte} (h : 65535 < payload.length)
    (model cmd p0 p1 : Byte) (s : State) :
    exec (.encode model cmd p0 p1 payload) s = .refused .payloadTooLong := by
  rcases encodeAndSend_cases model cmd p0 p1 payload s with ⟨_, e⟩ | ⟨hle, _⟩
  · exact e
  · omega

/-- Settles O24: the payload's length alone decides between sending and refusing. -/
theorem encodeDependsOnItsOperandsAlone : Obligations.EncodeDependsOnItsOperandsAlone := by
  intro model cmd p0 p1 payload
  rcases Nat.lt_or_ge 65535 payload.length with hlt | hle
  · exact .inr (exec_encode_of_lt hlt model cmd p0 p1)
  · exact .inl ⟨assembleFrame model cmd p0 p1 payload, exec_encode_of_le hle model cmd p0 p1⟩

end Sys2Proof.Machine
end

section
/-! PROOFS. Transmit and receive do not meet (rules R52 and R161): the bytes an ENCODE sends pass
through every operation on the buffer unchanged, since none of them reads `TX`. -/

namespace Sys2Proof.Machine

/-! ### Sent bytes pass through the receive path -/

section

variable (bs : List Byte) (s : State)

theorem clearRb_emitTx : (s.emitTx bs).clearRb = s.clearRb.emitTx bs := rfl

theorem appendByte_emitTx (b : Byte) :
    (s.emitTx bs).appendByte b = (s.appendByte b).emitTx bs := rfl

/-- Rule R140: the decoder's answer depends on the buffer, and each of its four effects commutes with
sending. -/
theorem applyDecode_emitTx :
    applyDecode (s.emitTx bs) = ((applyDecode s).1, (applyDecode s).2.emitTx bs) := by
  simp only [applyDecode, State.emitTx_rb]
  rcases classify s.rb with _ | (_ | _) | ⟨f, n⟩ <;> rfl

/-- Rule R141: DRAIN makes the same steps with and without the sent bytes. -/
theorem drainAll_emitTx : drainAll (s.emitTx bs) = (drainAll s).emitTx bs := by
  induction s using drain_induction with
  | done s h =>
    have hsent : classify (s.emitTx bs).rb = .needMoreData := h
    rw [drainAll_of_done h, drainAll_of_done hsent]
  | more s t h ih =>
    have hsent : applyDecode (s.emitTx bs) = (.more, t.emitTx bs) := by rw [applyDecode_emitTx, h]
    rw [drainAll_of_more h, drainAll_of_more hsent, ih]

/-- Rule R150: the overflow policy looks at the buffer and the capacity alone. -/
theorem makeRoom_emitTx : makeRoom (s.emitTx bs) = (makeRoom s).emitTx bs := by
  rcases makeRoom_cases s with ⟨hfull, e⟩ | ⟨hroom, e⟩ <;> rw [e]
  · exact if_pos hfull
  · exact if_neg hroom

/-- Rule R144: room is made, the byte appended and the buffer drained as without the sent bytes. -/
theorem receiveByte_emitTx (b : Byte) :
    receiveByte b (s.emitTx bs) = (receiveByte b s).emitTx bs := by
  simp only [receiveByte, makeRoom_emitTx, appendByte_emitTx, drainAll_emitTx]

end

/-! ### Both orders of two operations -/

theorem perform_pair {i j : Instr} {s t u : State} (hi : exec i s = .next t)
    (hj : exec j t = .next u) : perform [i, j] s = .next u := by
  simp only [perform, hi, hj]

/-- An operation that always completes, and through which sent bytes pass unchanged, commutes with
every admitted ENCODE. -/
theorem perform_encode_comm {i : Instr} {f : State → State} (hexec : ∀ s, exec i s = .next (f s))
    (hsent : ∀ bs s, f (s.emitTx bs) = (f s).emitTx bs) {payload : List Byte}
    (hlen : payload.length ≤ 65535) (model cmd p0 p1 : Byte) (s : State) :
    ∃ t, perform [.encode model cmd p0 p1 payload, i] s = .next t ∧
      perform [i, .encode model cmd p0 p1 payload] s = .next t := by
  have hencode := exec_encode_of_le hlen model cmd p0 p1
  refine ⟨(f s).emitTx (assembleFrame model cmd p0 p1 payload), ?_, ?_⟩
  · exact perform_pair (hencode s) ((hexec _).trans (congrArg _ (hsent _ s)))
  · exact perform_pair (hexec s) (hencode (f s))

/-- Settles O57: RX_PUSH and RESET complete in every state and let the sent bytes pass. -/
theorem transmitCommutesWithReceiveAndReset : Obligations.TransmitCommutesWithReceiveAndReset :=
  fun model cmd p0 p1 b _ s hlen =>
    ⟨perform_encode_comm (i := .rxPush b) (fun _ => rfl) (receiveByte_emitTx · · b) hlen
        model cmd p0 p1 s,
      perform_encode_comm (i := .reset) (fun _ => rfl) clearRb_emitTx hlen model cmd p0 p1 s⟩

end Sys2Proof.Machine
end

section
/-! PROOFS. The encoding (spec/30_encoding.md): the header word of rules R66 and R70, the operation
ids of rules R71 and R75, the requests of rules R76 to R78 and the pseudo-operations of rule R87. -/

namespace Sys2Proof.Machine

/-! ### The header word (rule R66) -/

/-- Rule R66, bit by bit: the word is the eight bytes joined, each above `k` others of 8 bits. -/
theorem getLsbD_headerWord (w : List Byte) {k j : Nat} (hk : k < 8) (hj : j < 8) :
    (headerWord w).getLsbD (8 * k + j) = (byteAt w k).getLsbD j := by
  change BitVec.getLsbD (w := 8 + 8 + 8 + 8 + 8 + 8 + 8 + 8) (_ ++ _) _ = _
  simp only [BitVec.getLsbD_append]
  interval_cases k <;> grind

theorem extractLsb'_headerWord (w : List Byte) {k : Nat} (hk : k < 8) :
    (headerWord w).extractLsb' (8 * k) 8 = byteAt w k := by
  apply BitVec.eq_of_getLsbD_eq
  intro j hj
  rw [BitVec.getLsbD_extractLsb', decide_eq_true hj, Bool.true_and, getLsbD_headerWord w hk hj]

theorem lenLo_extractLsb' (h : HeaderWord) : lenLo (h.extractLsb' 8 16) = h.extractLsb' 8 8 := by
  apply BitVec.eq_of_getLsbD_eq
  intro j hj
  simp [lenLo, show j < 16 by omega]

theorem lenHi_extractLsb' (h : HeaderWord) : lenHi (h.extractLsb' 8 16) = h.extractLsb' 16 8 := by
  apply BitVec.eq_of_getLsbD_eq
  intro j hj
  simp [lenHi, show 8 + j < 16 by omega, ← Nat.add_assoc]

/-- Rules R62 and R66: header bytes 1 and 2 are the length field, so bits 23 to 8 are its value. -/
theorem headerWord_length_field (w : List Byte) :
    (headerWord w).extractLsb' 8 16 = declaredLen w :=
  calc (headerWord w).extractLsb' 8 16
    _ = lenOf ((headerWord w).extractLsb' 8 8) ((headerWord w).extractLsb' 16 8) := by
      rw [← lenLo_extractLsb', ← lenHi_extractLsb', lenOf_lenLo_lenHi]
    _ = declaredLen w := by
      rw [declaredLen, extractLsb'_headerWord w (k := 1) (by decide),
        extractLsb'_headerWord w (k := 2) (by decide)]

theorem TableRow.admits_iff (r : TableRow) (h : HeaderWord) :
    r.admits h = true ↔ h &&& r.mask = r.pattern := by
  simp [TableRow.admits]

/-- Settles O9, from the word's bits. -/
theorem headerWordHoldsTheHeader : Obligations.HeaderWordHoldsTheHeader :=
  ⟨fun w _ _ hk => extractLsb'_headerWord w hk, fun w _ => headerWord_length_field w,
    TableRow.admits_iff⟩

/-! ### The bits and constraints of the wire-frame rows (rule R70) -/

/-- Stated with the literal that `simp` leaves of a mask byte. -/
@[simp] theorem and_byteOnes (b : Byte) : b &&& 255#8 = b := BitVec.and_allOnes

/-- A mask is applied byte by byte. -/
theorem headerWord_and_eq {w mask pattern : List Byte}
    (h : ∀ k < 8, byteAt w k &&& byteAt mask k = byteAt pattern k) :
    headerWord w &&& headerWord mask = headerWord pattern := by
  apply BitVec.eq_of_getLsbD_eq
  intro i hi
  have hk : i / 8 < 8 := by omega
  have hj : i % 8 < 8 := by omega
  rw [BitVec.getLsbD_and, ← Nat.div_add_mod i 8, getLsbD_headerWord w hk hj,
    getLsbD_headerWord mask hk hj, getLsbD_headerWord pattern hk hj, ← BitVec.getLsbD_and, h _ hk]

section masks

variable (len : Len) (model cmd p0 p1 chk : Byte) (payload : List Byte)

/-- FRAME's mask keeps the magic byte alone. -/
theorem headerWord_and_frameMask :
    headerWord (wireBytes len model cmd p0 p1 chk payload) &&& 0x00000000000000FF
      = 0x00000000000000DA := by
  apply headerWord_and_eq (mask := [0xFF, 0, 0, 0, 0, 0, 0, 0])
    (pattern := [0xDA, 0, 0, 0, 0, 0, 0, 0])
  intro k hk
  interval_cases k <;> simp [wireBytes, Config.magic]

/-- The request rows' mask keeps everything but the params. -/
theorem headerWord_and_requestMask :
    headerWord (wireBytes len model cmd p0 p1 chk payload) &&& 0xFF0000FFFFFFFFFF
      = headerWord (wireBytes len model cmd 0 0 chk []) := by
  apply headerWord_and_eq (mask := [0xFF, 0xFF, 0xFF, 0xFF, 0xFF, 0, 0, 0xFF])
  intro k hk
  interval_cases k <;> simp [wireBytes]

/-- TELEMETRY_REPORT's mask leaves the params and the checksum out. -/
theorem headerWord_and_telemetryMask :
    headerWord (wireBytes len model cmd p0 p1 chk payload) &&& 0x000000FFFFFFFFFF
      = headerWord (wireBytes len model cmd 0 0 0 []) := by
  apply headerWord_and_eq (mask := [0xFF, 0xFF, 0xFF, 0xFF, 0xFF, 0, 0, 0])
  intro k hk
  interval_cases k <;> simp [wireBytes]

/-- IDENTITY_RESPONSE's mask keeps the magic byte and the model. -/
theorem headerWord_and_identityMask :
    headerWord (wireBytes len model cmd p0 p1 chk payload) &&& 0x00000000FF0000FF
      = headerWord [Config.magic, 0, 0, model, 0, 0, 0, 0] := by
  apply headerWord_and_eq (mask := [0xFF, 0, 0, 0xFF, 0, 0, 0, 0])
  intro k hk
  interval_cases k <;> simp [wireBytes]

end masks

theorem Instr.wf_frame_chk {model cmd p0 p1 chk : Byte} {payload : List Byte}
    (h : (Instr.frame model cmd p0 p1 chk payload).wf = true) : chk = xorFold payload := by
  simp only [Instr.wf, Bool.and_eq_true, beq_iff_eq] at h
  obtain ⟨⟨_, hchk⟩, _⟩ := h
  exact hchk

theorem Instr.wf_telemetryReport {p0 p1 chk : Byte} {payload : List Byte}
    (h : (Instr.telemetryReport p0 p1 chk payload).wf = true) :
    payload.length = 8 ∧ chk = xorFold payload := by
  simpa [Instr.wf] using h

theorem Instr.wf_identityResponse {cmd p0 p1 chk : Byte} {payload : List Byte}
    (h : (Instr.identityResponse cmd p0 p1 chk payload).wf = true) :
    64 ≤ payload.length ∧ chk = xorFold payload := by
  simp only [Instr.wf, Bool.and_eq_true, beq_iff_eq, decide_eq_true_eq] at h
  obtain ⟨⟨hlen, _⟩, hchk⟩ := h
  exact ⟨hlen, hchk⟩

/-- Settles O10: each row's mask keeps the header bytes that its pattern spells. -/
theorem wireRowsHaveTheTablesBits : Obligations.WireRowsHaveTheTablesBits := by
  refine ⟨rfl, ?frame, ?enable, ?disable, ?identityRequest, ?telemetry, ?identityResponse⟩
  case frame =>
    intro model cmd p0 p1 chk payload h
    exact ⟨headerWord_and_frameMask .., Instr.wf_frame_chk h⟩
  case enable => exact fun p0 p1 => ⟨headerWord_and_requestMask .., rfl⟩
  case disable => exact fun p0 p1 => ⟨headerWord_and_requestMask .., rfl⟩
  case identityRequest => exact fun p0 p1 => ⟨headerWord_and_requestMask .., rfl⟩
  case telemetry =>
    intro p0 p1 chk payload h
    have ⟨hlen, hchk⟩ := Instr.wf_telemetryReport h
    refine ⟨?_, hchk⟩
    rw [encode, payloadLen_of_length (n := 8) hlen]
    exact headerWord_and_telemetryMask ..
  case identityResponse =>
    intro cmd p0 p1 chk payload h
    exact ⟨headerWord_and_identityMask .., Instr.wf_identityResponse h⟩

/-! ### Operation ids (rules R71 and R75) -/

/-- Rules R60 and R71: an encoding starts with the magic byte or with an id from 0 to 6. -/
theorem byteAt_encode_zero (i : Instr) :
    byteAt (encode i) 0 = Config.magic ∨ byteAt (encode i) 0 ≤ 6 := by
  cases i with
  | frame | streamEnable | streamDisable | identityRequest | telemetryReport | identityResponse =>
    exact .inl rfl
  | reset | rxPush | encode | xorFold | tryDecodeOne | decodeStep | drain =>
    right
    simp [Sys2Proof.encode]

/-- A step is refused where the listing's front is no operation. -/
theorem step_of_decode_error {s : State} {e : ListingError} (hne : s.listing ≠ [])
    (h : decode s.listing = .error e) : step s = .refused (refusalOf e) := by
  rcases step_cases s with ⟨hnil, _⟩ | ⟨_, _, _, hok, _⟩ | ⟨_, _, _, hok, _⟩ | ⟨e', _, herr, hstep⟩
  · exact absurd hnil hne
  · rw [h] at hok; cases hok
  · rw [h] at hok; cases hok
  · rw [h] at herr; cases herr
    exact hstep

/-- Settles O5: 7 is neither the magic byte nor at most 6, and the decoder answers it by name. -/
theorem operationIdSevenIsRefused : Obligations.OperationIdSevenIsRefused := by
  refine ⟨fun i rest h => ?_, fun s rest h => ?_⟩
  · have hfirst := byteAt_encode_zero i
    rw [h, byteAt_cons_zero] at hfirst
    exact absurd hfirst (by decide)
  · have herr : decode s.listing = .error .undefinedOp := by rw [h]; rfl
    exact step_of_decode_error (by simp [h]) herr

/-! ### Pseudo-operations (rule R87) -/

/-- Rule R145: performing one RX_PUSH a byte is receiving the chunk. -/
theorem perform_map_rxPush (bs : List Byte) (s : State) :
    perform (bs.map .rxPush) s = .next (receiveChunk bs s) := by
  induction bs generalizing s with
  | nil => rfl
  | cons b bs ih => exact ih (receiveByte b s)

/-- Settles O12: the expansions are the definition's own lines; `RX` is performed as its chunk. -/
theorem pseudoOperationsExpand : Obligations.PseudoOperationsExpand :=
  ⟨fun _ _ => rfl, fun b bs => perform_map_rxPush (b :: bs), fun _ _ _ => rfl, rfl, rfl, rfl⟩

/-! ### The requests (rules R76 to R78) -/

section requests

variable (model cmd p0 p1 : Byte) (s : State)

/-- Rule R93 for one payload byte: `N = 1`, and the byte is its own checksum. -/
theorem exec_encode_singleton (b : Byte) : exec (.encode model cmd p0 p1 [b]) s
    = .next { s with tx := s.tx ++ [0xDA, 0x01, 0x00, model, cmd, p0, p1, b, b] } := by
  have hframe : assembleFrame model cmd p0 p1 [b]
      = [0xDA, 0x01, 0x00, model, cmd, p0, p1, b, b] := by
    simp [assembleFrame, substituteEmpty, wireBytes, Config.magic, payloadLen, lenLo, lenHi]
  rw [exec_encode_of_le (by simp), hframe]
  rfl

/-- Rule R94: an empty payload is sent as one zero byte. -/
theorem exec_encode_nil :
    exec (.encode model cmd p0 p1 []) s = exec (.encode model cmd p0 p1 [0x00]) s := rfl

end requests

/-- Settles O22: each request is the ENCODE its rule names, of a payload sent as one byte. -/
theorem requestRowsSendTheirFrames : Obligations.RequestRowsSendTheirFrames := by
  intro s
  refine ⟨⟨exec_streamEnable .., ?enable⟩, ⟨exec_streamDisable .., ?disable⟩,
    ⟨exec_identityRequest .., ?identity⟩⟩
  case enable => exact exec_encode_singleton 0x04 0x05 0x00 0x00 s 0x00
  case disable => exact exec_encode_singleton 0x04 0x05 0x00 0x00 s 0x01
  case identity =>
    exact (exec_encode_nil 0x01 0x04 0x00 0x00 s).trans
      (exec_encode_singleton 0x01 0x04 0x00 0x00 s 0x00)

end Sys2Proof.Machine
end

section
/-! PROOFS. The XOR fold (spec/40_encoder.md rules R90 to R92). -/

namespace Sys2Proof.Machine

/-- Rule R92 (b): the fold of a concatenation. -/
@[simp] theorem xorFold_append (s t : List Byte) :
    xorFold (s ++ t) = xorFold s ^^^ xorFold t := by
  induction s with
  | nil => simp
  | cons b s ih => simp [ih, BitVec.xor_assoc]

/-- Settles O13: the corner cases and the example are runs of the fold, and one more byte is a
concatenation. -/
theorem xorFoldAccumulatesEveryByte : Obligations.XorFoldAccumulatesEveryByte :=
  ⟨xorFold_nil, fun _ => by simp, fun _ _ => by simp, by decide⟩

/-- Settles O14: XOR-ing the first byte into `0x00` gives that byte, the seed. -/
theorem xorFoldIsSeededByTheFirstByte : Obligations.XorFoldIsSeededByTheFirstByte := by
  refine ⟨fun b s => ?_, xorFold_nil⟩
  rw [foldl_xor_eq, xorFold_cons]

/-- Rule R92 (a): the bytes' order does not matter. -/
theorem xorFold_perm {s t : List Byte} (h : s.Perm t) : xorFold s = xorFold t := by
  induction h with
  | nil => rfl
  | cons b _ ih => simp [ih]
  | swap b c s => simp only [xorFold_cons]; ac_rfl
  | trans _ _ ihs iht => exact ihs.trans iht

/-! ### Changed bytes (rule R92 (c) and (d)) -/

theorem byteAt_set_self {s : List Byte} {i : Nat} (h : i < s.length) (b : Byte) :
    byteAt (s.set i b) i = b := by
  simp [byteAt, h]

theorem byteAt_set_of_ne {i j : Nat} (h : i ≠ j) (s : List Byte) (b : Byte) :
    byteAt (s.set i b) j = byteAt s j := by
  simp [byteAt, h]

/-- Rule R92 (c): replacing a byte takes the old one out of the fold and puts the new one in. -/
theorem xorFold_set {s : List Byte} {i : Nat} (h : i < s.length) (b : Byte) :
    xorFold (s.set i b) = xorFold s ^^^ byteAt s i ^^^ b := by
  induction s generalizing i with
  | nil => cases h
  | cons c s ih =>
    cases i with
    | zero =>
      simp only [List.set_cons_zero, xorFold_cons, byteAt_cons_zero]
      calc b ^^^ xorFold s
        _ = (c ^^^ c) ^^^ xorFold s ^^^ b := by simp [BitVec.xor_comm]
        _ = (c ^^^ xorFold s) ^^^ c ^^^ b := by ac_rfl
    | succ i => simp [ih (Nat.lt_of_succ_lt_succ h), BitVec.xor_assoc]

/-- Rule R92 (c): what a change XORs into the fold is zero only where nothing changed. -/
theorem xorFold_set_ne {s : List Byte} {i : Nat} {b : Byte} (h : i < s.length)
    (hb : b ≠ byteAt s i) : xorFold (s.set i b) ≠ xorFold s := by
  rw [xorFold_set h, BitVec.xor_assoc]
  intro heq
  have hzero : byteAt s i ^^^ b = 0 := by simpa using heq
  exact hb (BitVec.xor_eq_zero_iff.mp hzero).symm

/-- Rule R92 (d): the fold after two changes is the old one where the changes cancel out. -/
theorem xorFold_set_set {s : List Byte} {i j : Nat} (hi : i < s.length) (hj : j < s.length)
    {b c : Byte} (hcancel : byteAt s i ^^^ b = byteAt (s.set i b) j ^^^ c) :
    xorFold ((s.set i b).set j c) = xorFold s := by
  have hj' : j < (s.set i b).length := by simpa using hj
  rw [xorFold_set hj', xorFold_set hi, BitVec.xor_assoc, ← hcancel, BitVec.xor_assoc (xorFold s),
    BitVec.xor_assoc, BitVec.xor_self, BitVec.xor_zero]

/-- Rule R92 (d): one mask on two different bytes is not detected. -/
theorem xorFold_mask_two {s : List Byte} {i j : Nat} (hi : i < s.length) (hj : j < s.length)
    (hne : i ≠ j) (m : Byte) :
    xorFold ((s.set i (byteAt s i ^^^ m)).set j (byteAt s j ^^^ m)) = xorFold s := by
  apply xorFold_set_set hi hj
  rw [byteAt_set_of_ne hne, ← BitVec.xor_assoc, ← BitVec.xor_assoc, BitVec.xor_self,
    BitVec.xor_self]

/-- Rule R92 (d): a swap of two bytes is not detected. -/
theorem xorFold_swap {s : List Byte} {i j : Nat} (hi : i < s.length) (hj : j < s.length) :
    xorFold ((s.set i (byteAt s j)).set j (byteAt s i)) = xorFold s := by
  have hsecond : byteAt (s.set i (byteAt s j)) j = byteAt s j := by
    rcases eq_or_ne i j with rfl | hne
    · exact byteAt_set_self hi _
    · exact byteAt_set_of_ne hne s _
  apply xorFold_set_set hi hj
  rw [hsecond, BitVec.xor_comm]

/-- Rule R92 (d): an inserted pair of equal bytes is not detected. -/
theorem xorFold_insert_pair (s t u : List Byte) (b : Byte) :
    xorFold (s ++ b :: t ++ b :: u) = xorFold (s ++ t ++ u) := by
  simp only [xorFold_append, xorFold_cons]
  calc xorFold s ^^^ (b ^^^ xorFold t) ^^^ (b ^^^ xorFold u)
    _ = (b ^^^ b) ^^^ (xorFold s ^^^ xorFold t ^^^ xorFold u) := by ac_rfl
    _ = xorFold s ^^^ xorFold t ^^^ xorFold u := by simp

/-- Settles O15: one lemma for each line of rule R92. -/
theorem xorFoldAlgebra : Obligations.XorFoldAlgebra :=
  ⟨fun _ _ => xorFold_perm, xorFold_append,
    fun _ _ b hi hb => ⟨xorFold_set hi b, xorFold_set_ne hi hb⟩,
    fun _ _ _ m hi hj hne => xorFold_mask_two hi hj hne m,
    fun _ _ _ hi hj => xorFold_swap hi hj, xorFold_insert_pair⟩

/-- Rule R96: equal bytes cancel in pairs, so an odd number of them folds to the byte. -/
theorem xorFold_replicate_odd (k : Nat) (b : Byte) :
    xorFold (List.replicate (2 * k + 1) b) = b := by
  induction k with
  | zero => simp
  | succ k ih =>
    have hpair : List.replicate (2 * (k + 1) + 1) b = b :: b :: List.replicate (2 * k + 1) b := rfl
    rw [hpair, xorFold_cons, xorFold_cons, ih, BitVec.xor_self, BitVec.xor_zero]

end Sys2Proof.Machine
end

section
/-! PROOFS. The encoder (spec/40_encoder.md rules R93 to R98) and its round trip through the decoder
(rule R100). -/

namespace Sys2Proof.Machine

/-! ### The assembled frame (rules R62 and R93) -/

theorem lenLo_payloadLen (payload : List Byte) :
    lenLo (payloadLen payload) = BitVec.ofNat 8 payload.length := by
  apply BitVec.eq_of_toNat_eq
  simp [lenLo, payloadLen]

theorem lenHi_payloadLen (payload : List Byte) :
    lenHi (payloadLen payload) = BitVec.ofNat 8 (payload.length / 256) := by
  apply BitVec.eq_of_toNat_eq
  simp [lenHi, payloadLen, Nat.shiftRight_eq_div_pow]
  omega

section assembled

variable (model cmd p0 p1 : Byte)

/-- Rule R93: the frame's bytes, the length's low byte first. -/
theorem assembleFrame_eq (payload : List Byte) : assembleFrame model cmd p0 p1 payload
    = [0xDA, BitVec.ofNat 8 (substituteEmpty payload).length,
        BitVec.ofNat 8 ((substituteEmpty payload).length / 256), model, cmd, p0, p1,
        xorFold (substituteEmpty payload)] ++ substituteEmpty payload := by
  rw [← lenLo_payloadLen, ← lenHi_payloadLen]
  rfl

/-- Rule R96: the header and the payload that is sent. -/
theorem assembleFrame_length (payload : List Byte) :
    (assembleFrame model cmd p0 p1 payload).length = 8 + max 1 payload.length :=
  (wireBytes_length ..).trans (congrArg (8 + ·) (substituteEmpty_length payload))

/-- Rules R61 and R94: the payload that is sent is counted by the length field, and not empty. -/
theorem substituteEmpty_length_bounds {payload : List Byte} (h : payload.length ≤ 65535) :
    1 ≤ (substituteEmpty payload).length ∧ (substituteEmpty payload).length ≤ 65535 := by
  rw [substituteEmpty_length]
  omega

/-- Rule R94: the frame of an admitted payload never declares a length of 0. -/
theorem declaredLen_assembleFrame_ne_zero {payload : List Byte} (h : payload.length ≤ 65535) :
    declaredLen (assembleFrame model cmd p0 p1 payload) ≠ 0 := by
  have ⟨hpos, hle⟩ := substituteEmpty_length_bounds h
  have hdeclared : declaredLen (assembleFrame model cmd p0 p1 payload)
      = payloadLen (substituteEmpty payload) := by
    rw [← List.append_nil (assembleFrame ..)]
    exact declaredLen_wireBytes ..
  intro hzero
  have hcount : 0 = (substituteEmpty payload).length := by
    rw [← payloadLen_toNat hle, ← hdeclared, hzero]
    rfl
  omega

end assembled

/-! ### What an ENCODE sends -/

/-- Rules R93 and R95: an ENCODE that completes was admitted, and its frame is what `TX` gained. -/
theorem sent_of_exec_encode {model cmd p0 p1 : Byte} {payload : List Byte} {s t : State}
    (h : exec (.encode model cmd p0 p1 payload) s = .next t) :
    payload.length ≤ 65535 ∧
      t.tx.drop s.tx.length = assembleFrame model cmd p0 p1 payload := by
  rcases Nat.lt_or_ge 65535 payload.length with hlt | hle
  · rw [exec_encode_of_lt hlt] at h
    cases h
  · rw [exec_encode_of_le hle] at h
    cases h
    exact ⟨hle, List.drop_left⟩

/-- Rules R29 and R93: an admitted ENCODE adds the frame's bytes to `TX` and changes nothing else. -/
theorem exec_encode_sends {payload : List Byte} (h : payload.length ≤ 65535)
    (model cmd p0 p1 : Byte) (s : State) : exec (.encode model cmd p0 p1 payload) s = .next { s with
      tx := s.tx ++ [0xDA, BitVec.ofNat 8 (substituteEmpty payload).length,
        BitVec.ofNat 8 ((substituteEmpty payload).length / 256), model, cmd, p0, p1,
        xorFold (substituteEmpty payload)] ++ substituteEmpty payload } := by
  rw [exec_encode_of_le h, assembleFrame_eq, List.append_assoc]
  rfl

/-- Settles O17: the frame of an admitted payload, the refusal of a longer one, and a payload of one
byte. -/
theorem encodeSendsTheAssembledFrame : Obligations.EncodeSendsTheAssembledFrame := by
  refine ⟨fun model cmd p0 p1 payload s h => ?_,
    fun model cmd p0 p1 _ s h => exec_encode_of_lt h model cmd p0 p1 s,
    fun s => exec_encode_singleton 0x04 0x05 0x00 0x00 s 0x00⟩
  have ⟨hpos, hle⟩ := substituteEmpty_length_bounds h
  exact ⟨substituteEmpty payload, rfl, hpos, hle, exec_encode_sends h model cmd p0 p1 s⟩

/-- Settles O18: an admitted frame counts at least one byte, which for `[]` is the `0x00` put in its
place. -/
theorem encodeNeverSendsAnEmptyPayload : Obligations.EncodeNeverSendsAnEmptyPayload := by
  refine ⟨fun model cmd p0 p1 payload s t h => ?_,
    fun model cmd p0 p1 s => ⟨exec_encode_nil .., ?_⟩⟩
  · have ⟨hle, hsent⟩ := sent_of_exec_encode h
    rw [hsent]
    exact declaredLen_assembleFrame_ne_zero model cmd p0 p1 hle
  · exact (exec_encode_nil model cmd p0 p1 s).trans (exec_encode_singleton model cmd p0 p1 s 0x00)

/-- Settles O19: a payload that is not too long is sent. -/
theorem encodeRefusesAnUncountablePayload : Obligations.EncodeRefusesAnUncountablePayload := by
  intro model cmd p0 p1 payload s
  refine ⟨fun h => ?_, fun h => exec_encode_of_lt h model cmd p0 p1 s⟩
  by_contra hle
  rw [exec_encode_of_le (Nat.not_lt.mp hle)] at h
  cases h

/-- Rule R96: the frame at the top of the range, whose odd number of `0x55` folds to `0x55`. -/
theorem exec_encode_replicate_max (model cmd p0 p1 : Byte) (s : State) :
    exec (.encode model cmd p0 p1 (List.replicate 65535 0x55)) s = .next { s with
      tx := s.tx ++ [0xDA, 0xFF, 0xFF, model, cmd, p0, p1, 0x55] ++ List.replicate 65535 0x55 } := by
  have hlen : (List.replicate 65535 (0x55 : Byte)).length = 65535 := List.length_replicate
  have hsent : substituteEmpty (List.replicate 65535 0x55) = List.replicate 65535 0x55 :=
    if_neg (List.ne_nil_of_length_eq_add_one hlen)
  have hlo : BitVec.ofNat 8 65535 = 0xFF := by decide
  have hhi : BitVec.ofNat 8 (65535 / 256) = 0xFF := by decide
  rw [exec_encode_sends hlen.le, hsent, hlen, hlo, hhi, xorFold_replicate_odd 32767 0x55]

/-- Settles O20: the size is the assembled frame's, and the example is the frame at the top of the
range. -/
theorem encodeOutputSize : Obligations.EncodeOutputSize := by
  refine ⟨fun model cmd p0 p1 payload s h => ?_, exec_encode_replicate_max⟩
  have hlen := assembleFrame_length model cmd p0 p1 payload
  exact ⟨assembleFrame model cmd p0 p1 payload, exec_encode_of_le h model cmd p0 p1 s, hlen,
    by omega, by omega, rfl⟩

/-- Settles O21: the params stand at bytes 5 and 6 of the assembled frame. -/
theorem encodePassesParamsThrough : Obligations.EncodePassesParamsThrough := by
  refine ⟨fun model cmd p0 p1 payload s t h => ?_,
    fun s => exec_encode_singleton 0xAB 0xCD 0x11 0x22 s 0xFF⟩
  have ⟨_, hsent⟩ := sent_of_exec_encode h
  rw [hsent]
  exact ⟨rfl, rfl⟩

/-! ### The round trip (rule R100) -/

/-- Rules R110 and R115: a candidate that passes every check is decoded with its own bytes. -/
theorem classify_eq_decoded {s : List Byte} (hmagic : byteAt s 0 = Config.magic)
    (hlen : 8 + (declaredLen s).toNat ≤ s.length)
    (hchk : byteAt s 7 = xorFold (slice s 8 (8 + (declaredLen s).toNat))) :
    classify s = .decoded ⟨declaredLen s, byteAt s 3, byteAt s 4, byteAt s 5, byteAt s 6,
      byteAt s 7, slice s 8 (8 + (declaredLen s).toNat)⟩ (8 + (declaredLen s).toNat) := by
  rcases classify_cases s with ⟨rfl, _⟩ | ⟨_, hne, _⟩ | ⟨_, _, hlt, _⟩ | ⟨_, _, hlt, _⟩ |
    ⟨_, _, hne, _⟩ | ⟨_, _, _, e⟩
  · simp at hlen
  · exact absurd hmagic hne
  · omega
  · omega
  · exact absurd hchk hne
  · exact e

/-- Rule R60: the payload stands behind the header. -/
theorem slice_wireBytes (len : Len) (model cmd p0 p1 chk : Byte) (payload rest : List Byte) :
    slice (wireBytes len model cmd p0 p1 chk payload ++ rest) 8 (8 + payload.length)
      = payload := by
  rw [Nat.add_comm 8]
  exact List.take_left

/-- Rules R60 and R100: the decoder reads a valid frame back from its wire bytes, whatever follows
them, and takes exactly those. -/
theorem classify_wireBytes {len : Len} {chk : Byte} {payload : List Byte}
    (hlen : payload.length = len.toNat) (hchk : chk = xorFold payload)
    (model cmd p0 p1 : Byte) (rest : List Byte) :
    classify (wireBytes len model cmd p0 p1 chk payload ++ rest)
      = .decoded ⟨len, model, cmd, p0, p1, chk, payload⟩ (8 + payload.length) := by
  have hdeclared := declaredLen_wireBytes len model cmd p0 p1 chk payload rest
  have hslice := slice_wireBytes len model cmd p0 p1 chk payload rest
  have hdecoded := classify_eq_decoded (s := wireBytes len model cmd p0 p1 chk payload ++ rest) rfl
    (by rw [hdeclared, List.length_append, wireBytes_length]; omega)
    (by rw [hdeclared, ← hlen, hslice]; exact hchk)
  rw [hdeclared, ← hlen, hslice] at hdecoded
  exact hdecoded

/-- Settles O25: what an admitted ENCODE sends is a valid frame of the substituted payload. -/
theorem decoderReadsWhatEncodeSends : Obligations.DecoderReadsWhatEncodeSends := by
  intro model cmd p0 p1 payload s h
  have ⟨_, hle⟩ := substituteEmpty_length_bounds h
  exact ⟨assembleFrame model cmd p0 p1 payload, substituteEmpty payload, rfl,
    exec_encode_of_le h model cmd p0 p1 s, wireBytes_length ..,
    classify_wireBytes (payloadLen_toNat hle).symm rfl model cmd p0 p1⟩

end Sys2Proof.Machine
end

section
/-! PROOFS. TRY_DECODE_ONE (spec/41_decoder.md rules R112 to R122): when each answer is given, which
bytes it depends on, and what DRAIN then does. -/

namespace Sys2Proof.Machine

/-! ### When each answer is given (rules R112 to R115) -/

/-- Rule R113: the head byte alone decides on `BAD_MAGIC`. -/
theorem classify_eq_badMagic_iff (s : List Byte) :
    classify s = .resync .badMagic ↔ s ≠ [] ∧ byteAt s 0 ≠ Config.magic := by
  constructor
  · intro h
    rcases classify_cases s with ⟨_, e⟩ | ⟨hne, hmagic, _⟩ | ⟨_, _, _, e⟩ | ⟨_, _, _, e⟩ |
      ⟨_, _, _, e⟩ | ⟨_, _, _, e⟩
    case inr.inl => exact ⟨hne, hmagic⟩
    all_goals rw [e] at h; cases h
  · rintro ⟨hne, hmagic⟩
    simp [classify, hne, hmagic]

/-- Rules R114 and R115: once the candidate is complete, its checksum decides between the two
answers. -/
theorem classify_of_complete {s : List Byte} (hmagic : byteAt s 0 = Config.magic)
    (hlen : 8 + (declaredLen s).toNat ≤ s.length) :
    classify s = if byteAt s 7 = xorFold (slice s 8 (8 + (declaredLen s).toNat)) then
      .decoded ⟨declaredLen s, byteAt s 3, byteAt s 4, byteAt s 5, byteAt s 6, byteAt s 7,
        slice s 8 (8 + (declaredLen s).toNat)⟩ (8 + (declaredLen s).toNat)
      else .resync .badChecksum := by
  rcases classify_cases s with ⟨rfl, _⟩ | ⟨_, hne, _⟩ | ⟨_, _, hlt, _⟩ | ⟨_, _, hlt, _⟩ |
    ⟨_, _, hchk, e⟩ | ⟨_, _, hchk, e⟩
  · simp at hlen
  · exact absurd hmagic hne
  · omega
  · omega
  · rw [if_neg hchk, e]
  · rw [if_pos hchk, e]

/-- Rule R114: a complete candidate with another checksum. -/
theorem classify_eq_badChecksum_iff (s : List Byte) :
    classify s = .resync .badChecksum ↔
      byteAt s 0 = Config.magic ∧ 8 + (declaredLen s).toNat ≤ s.length ∧
        byteAt s 7 ≠ xorFold (slice s 8 (8 + (declaredLen s).toNat)) := by
  constructor
  · intro h
    rcases classify_cases s with ⟨_, e⟩ | ⟨_, _, e⟩ | ⟨_, _, _, e⟩ | ⟨_, _, _, e⟩ |
      ⟨hmagic, hlen, hchk, _⟩ | ⟨_, _, _, e⟩
    case inr.inr.inr.inr.inl => exact ⟨hmagic, hlen, hchk⟩
    all_goals rw [e] at h; cases h
  · rintro ⟨hmagic, hlen, hchk⟩
    rw [classify_of_complete hmagic hlen, if_neg hchk]

/-- Rule R115: a complete candidate with the right checksum, its fields copied from their places. -/
theorem classify_eq_decoded_iff (s : List Byte) (f : Frame) (n : Nat) :
    classify s = .decoded f n ↔
      byteAt s 0 = Config.magic ∧ 8 + (declaredLen s).toNat ≤ s.length ∧
        byteAt s 7 = xorFold (slice s 8 (8 + (declaredLen s).toNat)) ∧
        n = 8 + (declaredLen s).toNat ∧
        f = ⟨declaredLen s, byteAt s 3, byteAt s 4, byteAt s 5, byteAt s 6, byteAt s 7,
          slice s 8 n⟩ := by
  constructor
  · intro h
    rcases classify_cases s with ⟨_, e⟩ | ⟨_, _, e⟩ | ⟨_, _, _, e⟩ | ⟨_, _, _, e⟩ |
      ⟨_, _, _, e⟩ | ⟨hmagic, hlen, hchk, e⟩ <;> rw [e] at h <;> cases h
    exact ⟨hmagic, hlen, hchk, rfl, rfl⟩
  · rintro ⟨hmagic, hlen, hchk, rfl, rfl⟩
    exact classify_eq_decoded hmagic hlen hchk

/-- Rules R112 to R115: an answer is final at a wrong head byte, and at a complete candidate. -/
theorem classify_ne_needMoreData_iff (s : List Byte) :
    classify s ≠ .needMoreData ↔ (s ≠ [] ∧ byteAt s 0 ≠ Config.magic) ∨
      (byteAt s 0 = Config.magic ∧ 8 + (declaredLen s).toNat ≤ s.length) := by
  constructor
  · intro h
    rcases classify_cases s with ⟨_, e⟩ | ⟨hne, hmagic, _⟩ | ⟨_, _, _, e⟩ | ⟨_, _, _, e⟩ |
      ⟨hmagic, hlen, _⟩ | ⟨hmagic, hlen, _⟩
    case inr.inl => exact .inl ⟨hne, hmagic⟩
    case inr.inr.inr.inr.inl | inr.inr.inr.inr.inr => exact .inr ⟨hmagic, hlen⟩
    all_goals exact absurd e h
  · rintro (hbad | ⟨hmagic, hlen⟩)
    · rw [(classify_eq_badMagic_iff s).mpr hbad]
      simp
    · rw [classify_of_complete hmagic hlen]
      split <;> simp

/-! ### What DRAIN does with each answer (rules R112 to R115 and R121) -/

/-- Rule R141: after a step that answers MORE, DRAIN retries from the state that the step left. -/
theorem exec_drain_of_more {s t : State} (h : applyDecode s = (.more, t)) :
    exec .drain s = exec .drain t :=
  congrArg Host.Outcome.next (drainAll_of_more h)

/-- Rule R112: DRAIN has nothing to do in a drained state. -/
theorem exec_drain_of_drained {s : State} (h : s.Drained) : exec .drain s = .next s :=
  congrArg Host.Outcome.next (drainAll_of_done h)

/-- Rule R112: DECODE_STEP only shows its DONE in a drained state. -/
theorem exec_decodeStep_of_drained {s : State} (h : s.Drained) :
    exec .decodeStep s = .next (s.setReturned (.signal .done)) := by
  have hstep : exec .decodeStep s
      = .next ((applyDecode s).2.setReturned (.signal (applyDecode s).1)) := rfl
  rw [hstep, applyDecode_of_drained h]

theorem applyDecode_of_badMagic {s : State} (h : classify s.rb = .resync .badMagic) :
    applyDecode s = (.more, (s.emitDiag (.badMagic (byteAt s.rb 0))).consume 1) := by
  rw [applyDecode, h]

theorem applyDecode_of_badChecksum {s : State} (h : classify s.rb = .resync .badChecksum) :
    applyDecode s = (.more, (s.emitDiag (.badChecksum (byteAt s.rb 7)
      (xorFold (slice s.rb 8 (8 + (declaredLen s.rb).toNat))))).consume 1) := by
  rw [applyDecode, h]
  rfl

theorem applyDecode_of_decoded {s : State} {f : Frame} {n : Nat}
    (h : classify s.rb = .decoded f n) : applyDecode s = (.more, (s.consume n).emitFo f) := by
  rw [applyDecode, h]

/-- Settles O26: the three cases are the drained shapes, and a drained state keeps its buffer and
its emissions. -/
theorem needMoreDataCases : Obligations.NeedMoreDataCases := by
  refine ⟨fun s => ?_, fun s h =>
    ⟨exec_drain_of_drained h, some (.signal .done), exec_decodeStep_of_drained h⟩⟩
  rw [classify_eq_needMoreData_iff, List.length_eq_zero_iff]
  rfl

/-- Settles O27: the head byte decides, and the step that answers MORE drops just it. -/
theorem badMagicDropsOneByte : Obligations.BadMagicDropsOneByte := by
  refine ⟨fun s => ?_, fun s h => exec_drain_of_more (applyDecode_of_badMagic h)⟩
  rw [classify_eq_badMagic_iff, ← List.length_pos_iff]
  rfl

/-- Settles O28: the dropped byte is the magic byte that the answer requires at the head. -/
theorem badChecksumDropsOneByte : Obligations.BadChecksumDropsOneByte := by
  refine ⟨classify_eq_badChecksum_iff, fun s h => ⟨s.rb.drop 1, ?_, ?_⟩⟩
  · have ⟨hmagic, hlen, _⟩ := (classify_eq_badChecksum_iff s.rb).mp h
    cases hrb : s.rb with
    | nil => simp [hrb] at hlen
    | cons b tail =>
      rw [hrb] at hmagic
      exact congrArg (· :: tail) hmagic
  · exact exec_drain_of_more (applyDecode_of_badChecksum h)

/-! ### Which bytes an answer depends on (rules R119 and R120) -/

theorem byteAt_take_append {s : List Byte} {i k : Nat} (hs : i < s.length) (hk : i < k)
    (u : List Byte) : byteAt (s.take k ++ u) i = byteAt s i := by
  rw [byteAt_append_left _ _ _ (by rw [List.length_take]; omega), byteAt_take _ _ _ hk]

theorem slice_take_append {s : List Byte} {k : Nat} (h : k ≤ s.length) (i : Nat)
    (u : List Byte) : slice (s.take k ++ u) i k = slice s i k := by
  rw [slice_append_left _ _ _ _ (by rw [List.length_take]; omega), slice, slice, List.take_take,
    Nat.min_self]

/-- Rule R119: a final answer depends on the first `8 + N` bytes alone, or on all of them where
there are fewer: it is the answer for every sequence that starts with them. -/
theorem classify_of_examined_prefix {s t : List Byte} (hfinal : classify s ≠ .needMoreData)
    (hprefix : s.take (8 + (declaredLen s).toNat) <+: t) : classify t = classify s := by
  obtain ⟨u, rfl⟩ := hprefix
  rcases (classify_ne_needMoreData_iff s).mp hfinal with ⟨hne, hmagic⟩ | ⟨hmagic, hlen⟩
  · have hhead := byteAt_take_append (List.length_pos_iff.mpr hne)
      (show 0 < 8 + (declaredLen s).toNat by omega) u
    rw [(classify_eq_badMagic_iff s).mpr ⟨hne, hmagic⟩, classify_eq_badMagic_iff, hhead]
    exact ⟨by simp [hne], hmagic⟩
  · have hbyte (i : Nat) (hi : i < 8) := byteAt_take_append (s := s) (i := i)
      (k := 8 + (declaredLen s).toNat) (by omega) (by omega) u
    have hdeclared : declaredLen (s.take (8 + (declaredLen s).toNat) ++ u) = declaredLen s :=
      congrArg₂ lenOf (hbyte 1 (by omega)) (hbyte 2 (by omega))
    rw [classify_of_complete hmagic hlen, classify_of_complete ((hbyte 0 (by omega)).trans hmagic)
      (by rw [hdeclared, List.length_append, List.length_take]; omega)]
    simp only [hdeclared, slice_take_append hlen, hbyte, Nat.reduceLT]

/-- Settles O29: the answer's conditions, the prefix that it depends on, and the step that takes
just those bytes. -/
theorem decodedTakesExactlyTheFrame : Obligations.DecodedTakesExactlyTheFrame := by
  refine ⟨classify_eq_decoded_iff, fun s t f n h => ?_,
    fun s f n h => exec_drain_of_more (applyDecode_of_decoded h)⟩
  obtain ⟨_, _, _, rfl, _⟩ := (classify_eq_decoded_iff s f n).mp h
  have hfinal : classify s ≠ .needMoreData := by rw [h]; simp
  exact (classify_of_examined_prefix hfinal (List.prefix_append ..)).trans h

/-- Settles O32: extending a sequence, and cutting it behind its candidate, keep the prefix that a
final answer depends on; the lone magic byte can still become all three. -/
theorem answersAreStableUnderExtension : Obligations.AnswersAreStableUnderExtension := by
  refine ⟨fun s t h => ?_, fun s h => classify_of_examined_prefix h List.prefix_rfl, ?_⟩
  · exact classify_of_examined_prefix h ((List.take_prefix ..).trans (List.prefix_append ..))
  · exact ⟨[0xDA], [], [0, 0, 1, 2, 3, 4, 5], [0, 0, 1, 2, 3, 4, 0], by decide, by decide,
      by decide, ⟨0, 1, 2, 3, 4, 0, []⟩, 8, by decide⟩

theorem ne_nil_of_byteAt_magic {s : List Byte} (h : byteAt s 0 = Config.magic) : s ≠ [] := by
  rintro rfl
  exact absurd h (by decide)

/-- Rule R112: an incomplete header behind the magic byte waits, whatever it holds. -/
theorem classify_of_short {s : List Byte} (hmagic : byteAt s 0 = Config.magic)
    (hlen : s.length < 8) : classify s = .needMoreData :=
  (classify_eq_needMoreData_iff s).mpr (.inr (.inl
    ⟨hmagic, List.length_pos_iff.mpr (ne_nil_of_byteAt_magic hmagic), Nat.le_of_lt_succ hlen⟩))

theorem byteAt_eq_of_take_eq {s t : List Byte} {i k : Nat} (h : s.take k = t.take k)
    (hi : i < k) : byteAt s i = byteAt t i := by
  rw [← byteAt_take s i k hi, h, byteAt_take t i k hi]

/-- Rule R120: behind a complete header, waiting depends on the length and the first three bytes. -/
theorem classify_of_incomplete_payload {s t : List Byte} (hlen : s.length = t.length)
    (htake : s.take 3 = t.take 3) (hmagic : byteAt s 0 = Config.magic) (hge : 8 ≤ s.length)
    (hlt : s.length < 8 + (declaredLen s).toNat) : classify t = .needMoreData := by
  have hbyte (i : Nat) (hi : i < 3) : byteAt s i = byteAt t i := byteAt_eq_of_take_eq htake hi
  have hdeclared : declaredLen s = declaredLen t :=
    congrArg₂ lenOf (hbyte 1 (by omega)) (hbyte 2 (by omega))
  refine (classify_eq_needMoreData_iff t).mpr (.inr (.inr ⟨?_, ?_, ?_⟩))
  · rw [← hbyte 0 (by omega), hmagic]
  · rwa [← hlen]
  · rwa [← hlen, ← hdeclared]

/-- Settles O33: in each clause the examined bytes decide the answer. -/
theorem bytesTheDecoderExamines : Obligations.BytesTheDecoderExamines := by
  refine ⟨fun s t hs ht hhead hmagic => ?_, fun s t hlen hlt hs ht => ?_,
    fun s t hlen htake hs hge hlt => ?_, fun s t htake hs hge => ?_, fun s t hs ht => ?_⟩
  · rw [(classify_eq_badMagic_iff s).mpr ⟨hs, hmagic⟩,
      (classify_eq_badMagic_iff t).mpr ⟨ht, hhead ▸ hmagic⟩]
  · rw [classify_of_short hs hlt, classify_of_short ht (hlen ▸ hlt)]
  · rw [classify_of_incomplete_payload rfl rfl hs hge hlt,
      classify_of_incomplete_payload hlen htake hs hge hlt]
  · have hfinal := (classify_ne_needMoreData_iff s).mpr (.inr ⟨hs, hge⟩)
    exact (classify_of_examined_prefix hfinal (htake ▸ List.take_prefix ..)).symm
  · rw [List.length_eq_zero_iff.mp hs, List.length_eq_zero_iff.mp ht]

/-! ### The header's fields (rules R116 and R117) -/

/-- Rules R110 and R117: the answer behind a complete header, in terms of its bytes. -/
theorem classify_header (lo hi m c p q chk : Byte) (body : List Byte) :
    classify (0xDA :: lo :: hi :: m :: c :: p :: q :: chk :: body) =
      if body.length < (lenOf lo hi).toNat then .needMoreData
      else if chk = xorFold (body.take (lenOf lo hi).toNat) then
        .decoded ⟨lenOf lo hi, m, c, p, q, chk, body.take (lenOf lo hi).toNat⟩
          (8 + (lenOf lo hi).toNat)
      else .resync .badChecksum := by
  have hlength : (0xDA :: lo :: hi :: m :: c :: p :: q :: chk :: body).length
      = 8 + body.length := Nat.add_comm body.length 8
  have hslice : slice (0xDA :: lo :: hi :: m :: c :: p :: q :: chk :: body) 8
      (8 + (lenOf lo hi).toNat) = body.take (lenOf lo hi).toNat := by
    rw [Nat.add_comm 8]
    rfl
  split
  next hlt =>
    refine (classify_eq_needMoreData_iff _).mpr (.inr (.inr ⟨rfl, ?_, ?_⟩)) <;> rw [hlength]
    · omega
    · exact Nat.add_lt_add_left hlt 8
  next hge =>
    rw [← hslice]
    refine classify_of_complete rfl ?_
    rw [hlength]
    exact Nat.add_le_add_left (Nat.not_lt.mp hge) 8

/-- Settles O31: the routing bytes stand in no condition of the answer, and are copied into the
frame. -/
theorem routingBytesAreUnchecked : Obligations.RoutingBytesAreUnchecked := by
  intro lo hi chk m c p q m' c' p' q' body
  simp only [classify_header]
  split
  next => simp
  next =>
    split
    next =>
      refine ⟨by simp, by simp, fun f n h => ?_⟩
      cases h
      exact ⟨rfl, rfl, rfl, rfl, rfl⟩
    next => simp

/-- Rules R60 and R114: the wire bytes of a payload under another checksum than its fold, whatever
follows them. -/
theorem classify_wireBytes_badChecksum {len : Len} {chk : Byte} {payload : List Byte}
    (hlen : payload.length = len.toNat) (hchk : chk ≠ xorFold payload)
    (model cmd p0 p1 : Byte) (rest : List Byte) :
    classify (wireBytes len model cmd p0 p1 chk payload ++ rest) = .resync .badChecksum := by
  have hdeclared := declaredLen_wireBytes len model cmd p0 p1 chk payload rest
  have hslice := slice_wireBytes len model cmd p0 p1 chk payload rest
  rw [classify_eq_badChecksum_iff, hdeclared, ← hlen, hslice]
  refine ⟨rfl, ?_, hchk⟩
  rw [List.length_append, wireBytes_length]
  omega

/-- Settles O34: the changed payload folds to another byte than the frame's checksum. -/
theorem oneCorruptPayloadByteIsDetected : Obligations.OneCorruptPayloadByteIsDetected := by
  intro m c p0 p1 b payload rest i hlen hi hb
  have hcount : (payload.set i b).length = (payloadLen payload).toNat := by
    rw [List.length_set, payloadLen_toNat hlen]
  exact classify_wireBytes_badChecksum hcount (xorFold_set_ne hi hb).symm m c p0 p1 rest

/-- Settles O30: the empty payload folds to `0x00`, and so does the payload `[0x00]`. -/
theorem zeroLengthFrames : Obligations.ZeroLengthFrames :=
  fun m c p0 p1 _ =>
    ⟨classify_wireBytes (len := 0) (payload := []) rfl rfl m c p0 p1 [],
      fun hx => classify_wireBytes_badChecksum (len := 0) (payload := []) rfl hx m c p0 p1 [],
      classify_wireBytes (len := 1) (payload := [0x00]) rfl rfl m c p0 p1 []⟩

end Sys2Proof.Machine
end

section
/-! PROOFS. DECODE_STEP, DRAIN and chunks (spec/42_reassembly.md rules R140 to R146): DRAIN is a
bounded run of DECODE_STEPs, and bytes that are not yet received change nothing that it does. -/

namespace Sys2Proof.Machine

/-! ### DECODE_STEP (rule R140) -/

/-- Rule R140, log entry 4: DECODE_STEP applies one result and shows its answer. -/
theorem exec_decodeStep (s : State) : exec .decodeStep s
    = .next ((applyDecode s).2.setReturned (.signal (applyDecode s).1)) := rfl

/-- Settles O35: the decoder's answer is one of four, and each has its own step. -/
theorem decodeStepAppliesOneResult : Obligations.DecodeStepAppliesOneResult := by
  intro s
  refine ⟨some (.signal (applyDecode s).1), fun h => ?_, fun h => ?_, fun h => ?_,
    fun f n h => ?_⟩ <;> rw [exec_decodeStep]
  · rw [applyDecode_of_drained h]
    exact ⟨rfl, rfl⟩
  · rw [applyDecode_of_badMagic h]
    exact ⟨rfl, rfl⟩
  · rw [applyDecode_of_badChecksum h]
    exact ⟨rfl, rfl⟩
  · rw [applyDecode_of_decoded h]
    exact ⟨rfl, rfl⟩

/-! ### DRAIN (rules R141 to R143) -/

theorem exec_drain (s : State) : exec .drain s = .next (drainAll s) := rfl

/-- Rule R142: each MORE removes a byte, so the length of the buffer bounds their number. -/
theorem drainAll_moreSteps (s : State) :
    ∃ k ≤ s.rb.length, moreSteps k s (drainAll s) := by
  induction s using drain_induction with
  | done s h => exact ⟨0, Nat.zero_le _, drainAll_of_done h⟩
  | more s t h ih =>
    obtain ⟨k, hk, hsteps⟩ := ih
    refine ⟨k + 1, hk.trans_lt (applyDecode_more_shrinks h), ?_⟩
    rw [moreSteps, drainAll_of_more h, h]
    exact ⟨rfl, hsteps⟩

/-- Settles O37: DRAIN's MORE steps are counted by the bytes they remove, and it ends drained. -/
theorem drainIsABoundedRunOfSteps : Obligations.DrainIsABoundedRunOfSteps := by
  refine ⟨fun s t => applyDecode_more_shrinks, fun s => ?_⟩
  obtain ⟨k, hk, hsteps⟩ := drainAll_moreSteps s
  refine ⟨k, drainAll s, exec_drain s, hk, hsteps, ?_⟩
  rw [applyDecode_of_drained (drainAll_drained s)]

/-- Settles O38: a drained buffer has one of the three shapes. -/
theorem drainPostcondition : Obligations.DrainPostcondition := fun s =>
  have hdrained := drainAll_drained s
  ⟨drainAll s, exec_drain s, hdrained, (classify_eq_needMoreData_iff _).mp hdrained,
    (drainAll_frame s).1⟩

/-! ### Bytes behind the buffered ones (rules R119 and R146) -/

/-- The state with `bs` behind the buffered bytes: several `append`s of rule R13 at once. -/
def State.appendBytes (s : State) (bs : List Byte) : State := { s with rb := s.rb ++ bs }

section appendBytes

variable (s : State) (bs : List Byte)

@[simp] theorem State.appendBytes_rb : (s.appendBytes bs).rb = s.rb ++ bs := rfl

@[simp] theorem State.appendBytes_nil : s.appendBytes [] = s := by
  simp [State.appendBytes]

theorem State.appendBytes_cons (b : Byte) :
    s.appendBytes (b :: bs) = (s.appendByte b).appendBytes bs := by
  simp [State.appendBytes, State.appendByte]

theorem State.emitDiag_appendBytes (e : DiagEvent) :
    (s.appendBytes bs).emitDiag e = (s.emitDiag e).appendBytes bs := rfl

theorem State.emitFo_appendBytes (f : Frame) :
    (s.appendBytes bs).emitFo f = (s.emitFo f).appendBytes bs := rfl

end appendBytes

theorem State.consume_appendBytes {s : State} {k : Nat} (h : k ≤ s.rb.length) (bs : List Byte) :
    (s.appendBytes bs).consume k = (s.consume k).appendBytes bs := by
  simp [State.appendBytes, State.consume, List.drop_append_of_le_length h]

theorem declaredLen_append_left {xs : List Byte} (h : 3 ≤ xs.length) (ys : List Byte) :
    declaredLen (xs ++ ys) = declaredLen xs :=
  congrArg₂ lenOf (byteAt_append_left xs ys 1 (by omega)) (byteAt_append_left xs ys 2 (by omega))

/-- Rule R146: a MORE step on a partial buffer is the MORE step on the fuller one. -/
theorem applyDecode_appendBytes {s t : State} (h : applyDecode s = (.more, t)) (bs : List Byte) :
    applyDecode (s.appendBytes bs) = (.more, t.appendBytes bs) := by
  have hstable (hfinal : classify s.rb ≠ .needMoreData) :
      classify (s.appendBytes bs).rb = classify s.rb :=
    classify_of_examined_prefix hfinal ((List.take_prefix ..).trans (List.prefix_append ..))
  rcases applyDecode_cases s with ⟨_, e⟩ | ⟨hc, e⟩ | ⟨hc, e⟩ | ⟨f, n, hc, e⟩ <;>
    rw [e] at h <;> cases h <;> have hans := (hstable (by simp [hc])).trans hc
  · have hpos := classify_resync_pos hc
    rw [applyDecode_of_badMagic hans, State.appendBytes_rb, byteAt_append_left _ _ _ hpos,
      State.emitDiag_appendBytes, State.consume_appendBytes (by exact hpos)]
  · obtain ⟨_, hlen, _⟩ := (classify_eq_badChecksum_iff s.rb).mp hc
    rw [applyDecode_of_badChecksum hans, State.appendBytes_rb,
      byteAt_append_left _ _ _ (by omega), declaredLen_append_left (by omega),
      slice_append_left _ _ _ _ hlen, State.emitDiag_appendBytes,
      State.consume_appendBytes (by exact classify_resync_pos hc)]
  · rw [applyDecode_of_decoded hans, State.consume_appendBytes (classify_decoded_bounds hc).2,
      State.emitFo_appendBytes]

/-- Rule R146: draining before further bytes are appended makes no difference to draining after. -/
theorem drainAll_appendBytes (bs : List Byte) (s : State) :
    drainAll ((drainAll s).appendBytes bs) = drainAll (s.appendBytes bs) := by
  induction s using drain_induction with
  | done s h => rw [drainAll_of_done h]
  | more s t h ih => rw [drainAll_of_more h, drainAll_of_more (applyDecode_appendBytes h bs), ih]

/-! ### Chunks (rules R145 and R146) -/

/-- Settles O40: a chunk is performed as its RX_PUSHes. -/
theorem everyChunkIsReceived : Obligations.EveryChunkIsReceived :=
  ⟨perform_map_rxPush, fun _ => rfl⟩

/-- Rule R144: below the cap, an RX_PUSH only appends and drains. -/
theorem receiveByte_of_room {s : State} (h : s.rb.length ≠ s.rbCap) (b : Byte) :
    receiveByte b s = drainAll (s.appendByte b) := by
  rcases makeRoom_cases s with ⟨hfull, _⟩ | ⟨_, e⟩
  · exact absurd hfull h
  · rw [receiveByte, e]

/-- Rule R146: where all of a chunk fits, draining per byte is draining once. -/
theorem receiveChunk_eq_drainAll {bs : List Byte} {s : State} (hdrained : s.Drained)
    (hfits : s.rb.length + bs.length ≤ s.rbCap) :
    receiveChunk bs s = drainAll (s.appendBytes bs) := by
  induction bs generalizing s with
  | nil => rw [State.appendBytes_nil, drainAll_of_done hdrained, receiveChunk_nil]
  | cons b bs ih =>
    rw [List.length_cons] at hfits
    obtain ⟨hsuffix, hcap, _⟩ := drainAll_frame (s.appendByte b)
    have hshort : (drainAll (s.appendByte b)).rb.length ≤ s.rb.length + 1 := by
      simpa using hsuffix.length_le
    rw [receiveChunk_cons, receiveByte_of_room (by omega), ih (drainAll_drained _)
      (by rw [hcap, State.appendByte_rbCap]; omega), drainAll_appendBytes, State.appendBytes_cons]

/-- Rules R145 and R146: the RX_PUSHes of bytes that fit are one DRAIN behind all of them. -/
theorem perform_rxPush_eq_drain {bs : List Byte} {s : State} (hdrained : s.Drained)
    (hfits : s.rb.length + bs.length ≤ s.rbCap) :
    perform (bs.map .rxPush) s = exec .drain { s with rb := s.rb ++ bs } := by
  rw [perform_map_rxPush, receiveChunk_eq_drainAll hdrained hfits]
  rfl

/-- Settles O43: a chunk is a fold over its bytes, and a DRAIN between two of them is made up for by
the last one. -/
theorem chunkingInvariance : Obligations.ChunkingInvariance :=
  ⟨fun _ _ => List.foldl_flatten.symm, fun _ _ => perform_rxPush_eq_drain⟩

end Sys2Proof.Machine
end

section
/-! PROOFS. RX_PUSH at and below the cap and RESET (spec/42_reassembly.md rules R144, R150 to
R152 and R160). -/

namespace Sys2Proof.Machine

/-! ### RX_PUSH (rule R144) -/

theorem exec_rxPush (b : Byte) (s : State) : exec (.rxPush b) s = .next (receiveByte b s) := rfl

/-- Rule R150: at a full buffer the arriving byte is drained alone, behind the overflow event. -/
theorem exec_rxPush_of_full {s : State} (h : s.rb.length = s.rbCap) (b : Byte) :
    exec (.rxPush b) s = exec .drain { s with
      rb := [b], rxOut := s.rxOut ++ [.diag (.overflow s.rbCap)] } := by
  rcases makeRoom_cases s with ⟨_, e⟩ | ⟨hroom, _⟩
  · rw [exec_rxPush, receiveByte, e]
    rfl
  · exact absurd h hroom

/-- Rule R144: below the cap the arriving byte is appended, and the buffer drained. -/
theorem exec_rxPush_of_room {s : State} (h : s.rb.length ≠ s.rbCap) (b : Byte) :
    exec (.rxPush b) s = exec .drain { s with rb := s.rb ++ [b] } := by
  rw [exec_rxPush, receiveByte_of_room h]
  rfl

/-- Rule R9: an empty buffer is not full. -/
theorem length_ne_rbCap_of_nil {s : State} (hnil : s.rb = []) (hcap : 1 ≤ s.rbCap) :
    s.rb.length ≠ s.rbCap := by
  rw [hnil, List.length_nil]
  omega

theorem State.eq_of_rb_nil {s : State} (h : s.rb = []) : { s with rb := [] } = s := by
  rw [← h]

/-- Rule R121: a lone byte that is not the magic byte is reported and dropped. -/
theorem exec_drain_noise {b : Byte} (hb : b ≠ Config.magic) (s : State) :
    exec .drain { s with rb := [b] } = .next { s with
      rb := [], rxOut := s.rxOut ++ [.diag (.badMagic b)] } := by
  have hbad : classify [b] = .resync .badMagic :=
    (classify_eq_badMagic_iff [b]).mpr ⟨by simp, hb⟩
  rw [exec_drain_of_more (applyDecode_of_badMagic (s := { s with rb := [b] }) hbad)]
  exact exec_drain_of_drained rfl

/-- Rule R144: a byte that cannot begin a frame does not stay in an empty buffer. -/
theorem exec_rxPush_noise {s : State} {b : Byte} (hnil : s.rb = []) (hcap : 1 ≤ s.rbCap)
    (hb : b ≠ Config.magic) :
    exec (.rxPush b) s = .next { s with rxOut := s.rxOut ++ [.diag (.badMagic b)] } := by
  rw [exec_rxPush_of_room (length_ne_rbCap_of_nil hnil hcap), hnil, List.nil_append,
    exec_drain_noise hb, ← hnil]

theorem perform_cons_of_next {i : Instr} {s t : State} (h : exec i s = .next t)
    (is : List Instr) : perform (i :: is) s = perform is t := by
  rw [perform, h]

/-- Rules R144 and R145: so are any number of such bytes, in order. -/
theorem perform_rxPush_noise {s : State} {noise : List Byte} (hnil : s.rb = [])
    (hcap : 1 ≤ s.rbCap) (hnoise : ∀ b ∈ noise, b ≠ Config.magic) :
    perform (noise.map .rxPush) s
      = .next { s with rxOut := s.rxOut ++ noise.map fun b => .diag (.badMagic b) } := by
  induction noise generalizing s with
  | nil => simp [perform]
  | cons b noise ih =>
    obtain ⟨hb, hnoise⟩ := List.forall_mem_cons.mp hnoise
    have hrest := ih (s := s.emitDiag (.badMagic b)) hnil hcap hnoise
    rw [State.emitDiag_rxOut, List.append_assoc] at hrest
    exact (perform_cons_of_next (exec_rxPush_noise hnil hcap hb) _).trans hrest

/-- Rule R144: the magic byte stays in an empty buffer. -/
theorem exec_rxPush_magic {s : State} (hnil : s.rb = []) (hcap : 1 ≤ s.rbCap) :
    exec (.rxPush Config.magic) s = .next { s with rb := [Config.magic] } := by
  rw [exec_rxPush_of_room (length_ne_rbCap_of_nil hnil hcap), hnil, List.nil_append]
  exact exec_drain_of_drained rfl

/-- Rule R115: a buffer that is one whole frame is handed over and left empty. -/
theorem exec_drain_of_whole_frame {s : State} {f : Frame}
    (h : classify s.rb = .decoded f s.rb.length) :
    exec .drain s = .next { s with rb := [], rxOut := s.rxOut ++ [.frame f] } := by
  have hleft : ((s.consume s.rb.length).emitFo f).rb = [] := List.drop_length
  rw [exec_drain_of_more (applyDecode_of_decoded h),
    exec_drain_of_drained (by rw [State.Drained, hleft]; rfl), ← hleft]
  rfl

/-- Rule R144's worked example: the eight header bytes wait, and the payload byte completes the
frame. -/
theorem perform_rxPush_streamEnable {s : State} (hnil : s.rb = []) (hcap : 9 ≤ s.rbCap) :
    perform ([0xDA, 0x01, 0x00, 0x04, 0x05, 0x00, 0x00, 0x00].map .rxPush) s
      = .next { s with rb := [0xDA, 0x01, 0x00, 0x04, 0x05, 0x00, 0x00, 0x00] } ∧
    perform ([0xDA, 0x01, 0x00, 0x04, 0x05, 0x00, 0x00, 0x00, 0x00].map .rxPush) s
      = .next { s with
        rxOut := s.rxOut ++ [.frame ⟨1, 0x04, 0x05, 0x00, 0x00, 0x00, [0x00]⟩] } := by
  obtain ⟨_, _, hdrained⟩ := State.inv_of_rb_nil (by omega) hnil
  have hfits (bs : List Byte) (h : bs.length ≤ 9) : s.rb.length + bs.length ≤ s.rbCap := by
    rw [hnil, List.length_nil]
    omega
  constructor
  · rw [perform_rxPush_eq_drain hdrained (hfits _ (by decide)), hnil, List.nil_append]
    have hwaits : classify [0xDA, 0x01, 0x00, 0x04, 0x05, 0x00, 0x00, 0x00] = .needMoreData := by
      decide
    exact exec_drain_of_drained hwaits
  · have hframe : classify [0xDA, 0x01, 0x00, 0x04, 0x05, 0x00, 0x00, 0x00, 0x00]
        = .decoded ⟨1, 0x04, 0x05, 0x00, 0x00, 0x00, [0x00]⟩ 9 := by decide
    rw [perform_rxPush_eq_drain hdrained (hfits _ (by decide)), hnil, List.nil_append,
      exec_drain_of_whole_frame hframe, ← hnil]

/-- Settles O39: the cap decides between the two forms of an RX_PUSH; on an empty buffer its DRAIN
is known. -/
theorem rxPushAppendsAndDrains : Obligations.RxPushAppendsAndDrains :=
  ⟨fun b s => ⟨⟨receiveByte b s, exec_rxPush b s⟩, (exec_rxPush_of_full · b),
      (exec_rxPush_of_room · b)⟩,
    fun _ _ => exec_rxPush_noise, fun _ => exec_rxPush_magic,
    fun _ => perform_rxPush_streamEnable⟩

/-! ### RESET (rule R160) -/

theorem exec_reset (s : State) : exec .reset s = .next { s with rb := [] } := rfl

/-- Settles O2: RESET clears the buffer alone, and the two bytes behind it meet an empty one. -/
theorem resetOnlyEmptiesTheBuffer : Obligations.ResetOnlyEmptiesTheBuffer := by
  refine ⟨exec_reset, fun s h => ?_, fun s _ hcap => ?_⟩
  · rw [exec_reset, State.eq_of_rb_nil h]
  · rw [perform_cons_of_next (exec_reset s)]
    exact perform_rxPush_noise (noise := [0x04, 0x05]) rfl hcap (by decide)

/-! ### What a DRAIN emits (rules R140 and R150) -/

/-- What DECODE_STEPs on `n` buffered bytes can emit: a frame no larger than that, or a report that
is no overflow. -/
def RxOut.FromBuffer (n : Nat) (o : RxOut) : Prop :=
  o.isOverflow = false ∧ ∀ f, o = .frame f → 8 + f.len.toNat ≤ n

theorem RxOut.FromBuffer.mono {m n : Nat} {o : RxOut} (h : o.FromBuffer m) (hle : m ≤ n) :
    o.FromBuffer n :=
  ⟨h.1, fun f hf => (h.2 f hf).trans hle⟩

/-- Rule R140: a step that answers MORE makes one emission. -/
theorem applyDecode_more_emits {s t : State} (h : applyDecode s = (.more, t)) :
    ∃ o, t.rxOut = s.rxOut ++ [o] ∧ o.FromBuffer s.rb.length := by
  rcases applyDecode_cases s with ⟨_, e⟩ | ⟨_, e⟩ | ⟨_, e⟩ | ⟨f, n, hc, e⟩ <;>
    rw [e] at h <;> cases h
  · exact ⟨_, rfl, rfl, nofun⟩
  · exact ⟨_, rfl, rfl, nofun⟩
  · obtain ⟨_, hlen, _, _, rfl⟩ := (classify_eq_decoded_iff s.rb f n).mp hc
    refine ⟨_, rfl, rfl, fun g hg => ?_⟩
    cases hg
    exact hlen

/-- Rules R140 and R141: what a DRAIN adds to the emissions. -/
theorem drainAll_emits (s : State) :
    ∃ outs, (drainAll s).rxOut = s.rxOut ++ outs ∧ ∀ o ∈ outs, o.FromBuffer s.rb.length := by
  induction s using drain_induction with
  | done s h => exact ⟨[], by simp [drainAll_of_done h], by simp⟩
  | more s t h ih =>
    obtain ⟨outs, hout, hfrom⟩ := ih
    obtain ⟨o, ho, hofrom⟩ := applyDecode_more_emits h
    refine ⟨o :: outs, by rw [drainAll_of_more h, hout, ho, List.append_assoc]; rfl, ?_⟩
    rw [List.forall_mem_cons]
    exact ⟨hofrom, fun o' ho' => (hfrom o' ho').mono (applyDecode_more_shrinks h).le⟩

/-- Rule R150: an RX_PUSH emits the overflow event at a full buffer, and then what its DRAIN
emits. -/
theorem receiveByte_emits (b : Byte) (s : State) :
    ∃ outs, (receiveByte b s).rxOut
        = s.rxOut ++ (if s.rb.length = s.rbCap then [.diag (.overflow s.rbCap)] else []) ++ outs ∧
      ∀ o ∈ outs, o.FromBuffer ((makeRoom s).appendByte b).rb.length := by
  obtain ⟨outs, hout, hfrom⟩ := drainAll_emits ((makeRoom s).appendByte b)
  refine ⟨outs, ?_, hfrom⟩
  rw [receiveByte, hout, State.appendByte_rxOut]
  rcases makeRoom_cases s with ⟨hfull, e⟩ | ⟨hroom, e⟩
  · rw [e, if_pos hfull]
    rfl
  · rw [e, if_neg hroom, List.append_nil]

/-- Settles O48: the overflow event is the one that making room emits, and the bound is kept. -/
theorem overflowPolicy : Obligations.OverflowPolicy := by
  refine fun b s => ⟨(exec_rxPush_of_full · b), ?_⟩
  obtain ⟨outs, hout, hfrom⟩ := receiveByte_emits b s
  refine ⟨receiveByte b s, outs, exec_rxPush b s, hout, fun o ho => (hfrom o ho).1,
    fun hcap hfits => ⟨?_, (receiveByte_frame b s).1⟩⟩
  exact (bufferFits_iff _).mp (receiveByte_bufferFits b hcap ((bufferFits_iff s).mpr hfits))

/-! ### Frames that wait at the head (rules R119 and R152) -/

theorem Frame.wire_length {f : Frame} (h : f.Sound) : f.wire.length = 8 + f.len.toNat := by
  rw [Frame.wire, wireBytes_length, h.1]

theorem classify_wire {f : Frame} (h : f.Sound) : classify f.wire = .decoded f f.wire.length := by
  have hdecoded := classify_wireBytes h.1 h.2 f.model f.cmd f.p0 f.p1 []
  rwa [List.append_nil, ← wireBytes_length] at hdecoded

/-- Rule R119: a frame that has not wholly arrived waits, since its final answer would already take
bytes that are not there. -/
theorem classify_take_wire {f : Frame} (h : f.Sound) {k : Nat} (hk : k < f.wire.length) :
    classify (f.wire.take k) = .needMoreData := by
  by_contra hfinal
  have hprefix := (List.take_prefix (8 + (declaredLen (f.wire.take k)).toNat) _).trans
    (List.take_prefix k f.wire)
  have hsame := classify_of_examined_prefix hfinal hprefix
  rw [classify_wire h] at hsame
  have hbounds := classify_decoded_bounds hsame.symm
  rw [List.length_take] at hbounds
  omega

theorem length_take_wire {f : Frame} {k : Nat} (hk : k < f.wire.length) :
    (f.wire.take k).length = k := by
  rw [List.length_take, Nat.min_eq_left hk.le]

/-- Rule R152 (b): a frame within the cap, waiting at the head, is completed by the rest of its
bytes. -/
theorem perform_rxPush_rest_of_wire {s : State} {f : Frame} {k : Nat} (h : f.Sound)
    (hcap : f.wire.length ≤ s.rbCap) (hk : k < f.wire.length) (hrb : s.rb = f.wire.take k) :
    perform ((f.wire.drop k).map .rxPush) s
      = .next { s with rb := [], rxOut := s.rxOut ++ [.frame f] } := by
  have hdrained : s.Drained := by rw [State.Drained, hrb, classify_take_wire h hk]
  have hfits : s.rb.length + (f.wire.drop k).length ≤ s.rbCap := by
    rwa [hrb, ← List.length_append, List.take_append_drop]
  rw [perform_rxPush_eq_drain hdrained hfits, hrb, List.take_append_drop]
  exact exec_drain_of_whole_frame (s := { s with rb := f.wire }) (classify_wire h)

/-! ### Large and small capacities (rules R151 and R152) -/

/-- Rule R28: a drained buffer that holds something has the magic byte at its head, and behind a
complete header fewer bytes than it declares. -/
theorem DrainedShape.head {rb : List Byte} (h : DrainedShape rb) (hne : rb ≠ []) :
    byteAt rb 0 = Config.magic ∧ (8 ≤ rb.length → rb.length < 8 + (declaredLen rb).toNat) := by
  rcases h with hnil | ⟨hmagic, _, hle⟩ | ⟨hmagic, _, hlt⟩
  · exact absurd hnil hne
  · exact ⟨hmagic, by omega⟩
  · exact ⟨hmagic, fun _ => hlt⟩

/-- Settles O49: a drained buffer is shorter than a maximum frame, and all of that frame but its
last byte is a drained buffer. -/
theorem overflowNeverFiresAtMaxFrame : Obligations.OverflowNeverFiresAtMaxFrame := by
  refine ⟨fun b s ⟨_, _, hdrained⟩ hcap => ?_, fun f s b hsound hlen hcap hrb => ?_⟩
  · have hle : s.rb.length ≤ 65542 := ((classify_eq_needMoreData_iff s.rb).mp hdrained).length_le
    obtain ⟨outs, hout, hfrom⟩ := receiveByte_emits b s
    rw [if_neg (by omega), List.append_nil] at hout
    exact ⟨hle, receiveByte b s, outs, exec_rxPush b s, hout, fun o ho => (hfrom o ho).1⟩
  · have hwire : f.wire.length = 65543 := by rw [Frame.wire_length hsound, hlen]; rfl
    have hk : 65542 < f.wire.length := by omega
    have hfull : s.rb.length = s.rbCap := by rw [hrb, length_take_wire hk, hcap]
    refine ⟨⟨by omega, (bufferFits_iff s).mpr hfull.le, ?_⟩, hcap ▸ exec_rxPush_of_full hfull b⟩
    rw [State.Drained, hrb, classify_take_wire hsound hk]

/-- Rule R152 (a): an RX_PUSH decodes on at most as many bytes as the buffer can hold. -/
theorem len_le_rbCap_of_emitted {b : Byte} {s : State} {outs : List RxOut} {f : Frame}
    (hinv : s.Inv) (hout : (receiveByte b s).rxOut = s.rxOut ++ outs) (hf : .frame f ∈ outs) :
    8 + f.len.toNat ≤ s.rbCap := by
  obtain ⟨hcap, hfits, _⟩ := hinv
  obtain ⟨drained, hdrained, hfrom⟩ := receiveByte_emits b s
  rw [hdrained, List.append_assoc, List.append_cancel_left_eq] at hout
  have hmem : .frame f ∈ drained := by
    rw [← hout] at hf
    rcases List.mem_append.mp hf with hover | hmem
    · split at hover <;> simp at hover
    · exact hmem
  have hroom := (bufferFits_iff _).mp (makeRoom_appendByte_bufferFits b hcap hfits)
  rw [State.appendByte_rbCap, (makeRoom_frame s).1] at hroom
  exact ((hfrom _ hmem).2 f rfl).trans hroom

/-- Rules R150 and R152 (c): at a full buffer the arriving byte is examined as from an empty one. -/
theorem exec_rxPush_of_full_eq_of_empty {s : State} (hcap : 1 ≤ s.rbCap)
    (h : s.rb.length = s.rbCap) (b : Byte) :
    exec (.rxPush b) s = exec (.rxPush b) { s with
      rb := [], rxOut := s.rxOut ++ [.diag (.overflow s.rbCap)] } :=
  (exec_rxPush_of_full h b).trans
    (exec_rxPush_of_room (s := (s.emitDiag (.overflow s.rbCap)).clearRb)
      (length_ne_rbCap_of_nil rfl hcap) b).symm

/-- Settles O50: the cap bounds what an RX_PUSH decodes on; a waiting frame within it leaves room; a
full drained buffer waits for more than the cap. -/
theorem smallCapacity : Obligations.SmallCapacity := by
  refine ⟨fun b s t outs f hinv _ hexec hout hf => ?_, fun f k s hsound _ hcap hk hrb => ?_,
    fun b s ⟨hcap, _, hdrained⟩ _ hfull => ?_⟩
  · cases hexec
    exact len_le_rbCap_of_emitted hinv hout hf
  · refine ⟨?_, perform_rxPush_rest_of_wire hsound hcap hk hrb⟩
    rw [hrb, length_take_wire hk]
    exact hk.trans_le hcap
  · have hne : s.rb ≠ [] := List.length_pos_iff.mp (by omega)
    have ⟨hmagic, hlarge⟩ := ((classify_eq_needMoreData_iff s.rb).mp hdrained).head hne
    exact ⟨hmagic, fun h => hfull ▸ hlarge h, exec_rxPush_of_full_eq_of_empty hcap hfull b⟩

end Sys2Proof.Machine
end

section
/-! PROOFS. RESET and RX_PUSH in either order (spec/70_reset_and_hazards.md rule R193). -/

namespace Sys2Proof.Machine

/-- Rule R193, RESET first: the byte meets an empty buffer, where it waits if it can begin a frame
and is reported and dropped if it cannot. -/
theorem perform_reset_rxPush {s : State} (b : Byte) (hcap : 1 ≤ s.rbCap) :
    perform [.reset, .rxPush b] s = .next (if b = Config.magic then { s with rb := [Config.magic] }
      else { s with rb := [], rxOut := s.rxOut ++ [.diag (.badMagic b)] }) := by
  refine perform_pair (exec_reset s) ?_
  split
  · next hb => exact hb ▸ exec_rxPush_magic (s := s.clearRb) rfl hcap
  · next hb => exact exec_rxPush_noise (s := s.clearRb) rfl hcap hb

/-- Rule R193, RX_PUSH first: what the byte completed stays emitted, and what it left in the buffer
is discarded. -/
theorem perform_rxPush_reset (b : Byte) (s : State) :
    perform [.rxPush b, .reset] s = .next { receiveByte b s with rb := [] } :=
  perform_pair (exec_rxPush b s) (exec_reset _)

/-- Settles O58: the magic byte tells the two orders apart, already in the reset state, since the
buffer holds it only where RESET came first. -/
theorem resetAndRxPushOrders : Obligations.ResetAndRxPushOrders := by
  refine ⟨fun b _ => perform_reset_rxPush b,
    fun b s => ⟨receiveByte b s, exec_rxPush b s, perform_rxPush_reset b s⟩,
    Config.magic, State.reset, _, _, State.inv_of_rb_nil (by decide) rfl,
    perform_reset_rxPush Config.magic (by decide), perform_rxPush_reset Config.magic State.reset,
    fun hsame => ?_⟩
  have hrb : [Config.magic] = [] := congrArg State.rb hsame
  exact absurd hrb (List.cons_ne_nil _ _)

end Sys2Proof.Machine
end

section
/-! PROOFS. The listing: the decoder and the encoder of operations are inverse to each other
(spec/30_encoding.md sections 1, 3, 5 and 7), and one step performs the operation that is listed
first (rules R71 and R185). -/

namespace Sys2Proof.Machine

/-! ### Length fields of the listing (rules R62 and R88) -/

/-- Rule R62: the bytes behind a two-byte length are split off exactly when that length is theirs. -/
theorem splitExact_lenOf_iff {lo hi : Byte} {bs xs rest : List Byte} :
    splitExact (lenOf lo hi).toNat bs = some (xs, rest) ↔
      xs.length ≤ 65535 ∧ lo = lenLo (payloadLen xs) ∧ hi = lenHi (payloadLen xs) ∧
        bs = xs ++ rest := by
  constructor
  · intro h
    obtain ⟨rfl, hlen⟩ := splitExact_some h
    have hfield := (lenOf lo hi).isLt
    rw [payloadLen_of_length hlen, lenLo_lenOf, lenHi_lenOf]
    exact ⟨by omega, rfl, rfl, rfl⟩
  · rintro ⟨hlen, rfl, rfl, rfl⟩
    rw [lenOf_lenLo_lenHi, payloadLen_toNat hlen, splitExact_append]

/-- Three bytes spell the digits of their number. -/
theorem ofNat_len24 (b0 b1 b2 : Byte) :
    BitVec.ofNat 8 (len24 b0 b1 b2) = b0 ∧ BitVec.ofNat 8 (len24 b0 b1 b2 / 256) = b1 ∧
      BitVec.ofNat 8 (len24 b0 b1 b2 / 65536) = b2 := by
  have h0 := b0.isLt
  have h1 := b1.isLt
  have h2 := b2.isLt
  refine ⟨?_, ?_, ?_⟩ <;> apply BitVec.eq_of_toNat_eq <;>
    rw [BitVec.toNat_ofNat, len24] <;> omega

/-- The same for the three-byte length of log entry 6. -/
theorem splitExact_len24_iff {b0 b1 b2 : Byte} {bs xs rest : List Byte} :
    splitExact (len24 b0 b1 b2) bs = some (xs, rest) ↔
      xs.length < 2 ^ 24 ∧ b0 = BitVec.ofNat 8 xs.length ∧
        b1 = BitVec.ofNat 8 (xs.length / 256) ∧ b2 = BitVec.ofNat 8 (xs.length / 65536) ∧
        bs = xs ++ rest := by
  constructor
  · intro h
    obtain ⟨rfl, hlen⟩ := splitExact_some h
    obtain ⟨h0, h1, h2⟩ := ofNat_len24 b0 b1 b2
    refine ⟨?_, by rw [hlen, h0], by rw [hlen, h1], by rw [hlen, h2], rfl⟩
    have := b0.isLt
    have := b1.isLt
    have := b2.isLt
    rw [hlen, len24]
    omega
  · rintro ⟨hlen, rfl, rfl, rfl, rfl⟩
    rw [Laws.FetchLength.len24_ofNat hlen, splitExact_append]

/-! ### The operation of a wire frame (rules R68 (b) and R70) -/

/-- The operation that a listed wire frame stands for: its row's, or FRAME where its checksum is
wrong. -/
def wireOperation (model cmd p0 p1 chk : Byte) (payload : List Byte) : Instr :=
  if chk = xorFold payload then classifyFrame model cmd p0 p1 chk payload
  else .frame model cmd p0 p1 chk payload

theorem hasOwnRow_iff (model cmd : Byte) (payload : List Byte) :
    hasOwnRow model cmd payload = true ↔
      (model = 0x04 ∧ cmd = 0x05 ∧ (payload = [0x00] ∨ payload = [0x01] ∨ payload.length = 8)) ∨
      (model = 0x01 ∧ cmd = 0x04 ∧ payload = [0x00]) ∨ (model = 0x01 ∧ 64 ≤ payload.length) := by
  simp [hasOwnRow, and_assoc, or_assoc]

section wire

variable {model cmd p0 p1 chk : Byte} {payload : List Byte}

/-- Rule R70: a frame is a generic FRAME exactly where no other row describes it. -/
theorem classifyFrame_of_no_row (h : hasOwnRow model cmd payload = false) :
    classifyFrame model cmd p0 p1 chk payload = .frame model cmd p0 p1 chk payload := by
  rw [← Bool.not_eq_true, hasOwnRow_iff] at h
  unfold classifyFrame
  split_ifs
  case neg => rfl
  all_goals tauto

theorem wireOperation_frame (h : (Instr.frame model cmd p0 p1 chk payload).listable = true) :
    wireOperation model cmd p0 p1 chk payload = .frame model cmd p0 p1 chk payload := by
  unfold wireOperation
  split
  next hchk =>
    have ⟨_, hrow⟩ : fitsLength payload = true ∧ hasOwnRow model cmd payload = false := by
      simpa [Instr.listable, Instr.wf, Instr.corruptFrame, hchk] using h
    exact classifyFrame_of_no_row hrow
  next => rfl

theorem wireOperation_telemetryReport
    (h : (Instr.telemetryReport p0 p1 chk payload).wf = true) :
    wireOperation 0x04 0x05 p0 p1 chk payload = .telemetryReport p0 p1 chk payload := by
  obtain ⟨hlen, hchk⟩ := Instr.wf_telemetryReport h
  have hne (b : Byte) : payload ≠ [b] := by
    rintro rfl
    simp at hlen
  simp [wireOperation, classifyFrame, hchk, hlen, hne]

theorem Instr.fitsLength_of_wf_identityResponse
    (h : (Instr.identityResponse cmd p0 p1 chk payload).wf = true) :
    fitsLength payload = true := by
  simp only [Instr.wf, Bool.and_eq_true] at h
  obtain ⟨⟨_, hfits⟩, _⟩ := h
  exact hfits

theorem wireOperation_identityResponse
    (h : (Instr.identityResponse cmd p0 p1 chk payload).wf = true) :
    wireOperation 0x01 cmd p0 p1 chk payload = .identityResponse cmd p0 p1 chk payload := by
  obtain ⟨hlen, hchk⟩ := Instr.wf_identityResponse h
  have hne (b : Byte) : payload ≠ [b] := by
    rintro rfl
    simp at hlen
  simp [wireOperation, classifyFrame, hchk, hlen, hne]

/-- Rule R70: the row of a valid frame admits it, and its operation is written as that frame. -/
theorem classifyFrame_canonical (hlen : payload.length ≤ 65535) (hchk : chk = xorFold payload) :
    (classifyFrame model cmd p0 p1 chk payload).wf = true ∧
      encode (classifyFrame model cmd p0 p1 chk payload)
        = wireBytes (payloadLen payload) model cmd p0 p1 chk payload := by
  have hfits : fitsLength payload = true := decide_eq_true hlen
  subst hchk
  unfold classifyFrame
  split_ifs with henable hdisable hidentity htelemetry hresponse
  · obtain ⟨rfl, rfl, rfl⟩ := henable
    exact ⟨rfl, rfl⟩
  · obtain ⟨rfl, rfl, rfl⟩ := hdisable
    exact ⟨rfl, rfl⟩
  · obtain ⟨rfl, rfl, rfl⟩ := hidentity
    exact ⟨rfl, rfl⟩
  · obtain ⟨rfl, rfl, h8⟩ := htelemetry
    exact ⟨by simp [Instr.wf, h8], rfl⟩
  · obtain ⟨rfl, h64⟩ := hresponse
    exact ⟨by simp [Instr.wf, h64, hfits], rfl⟩
  · have hrow : hasOwnRow model cmd payload = false := by
      rw [← Bool.not_eq_true, hasOwnRow_iff]
      tauto
    exact ⟨by simp [Instr.wf, hfits, hrow], rfl⟩

/-- Rules R60 and R68 (b): whatever its checksum, a wire frame's operation can be listed and is
written as that frame. -/
theorem wireOperation_canonical (hlen : payload.length ≤ 65535) :
    (wireOperation model cmd p0 p1 chk payload).listable = true ∧
      encode (wireOperation model cmd p0 p1 chk payload)
        = wireBytes (payloadLen payload) model cmd p0 p1 chk payload := by
  unfold wireOperation
  split
  next hchk =>
    obtain ⟨hwf, hbytes⟩ := classifyFrame_canonical (model := model) (cmd := cmd) (p0 := p0)
      (p1 := p1) hlen hchk
    exact ⟨by rw [Instr.listable, hwf, Bool.true_or], hbytes⟩
  next hchk =>
    have hfits : fitsLength payload = true := decide_eq_true hlen
    exact ⟨by simp [Instr.listable, Instr.corruptFrame, hfits, hchk], rfl⟩

end wire

/-! ### What each part of the decoder accepts -/

section header

variable {lo hi : Byte} {body payload rest : List Byte} (model cmd p0 p1 chk : Byte)

/-- Rule R60: behind a header, the declared payload decides. -/
theorem decodeWireFrame_of_split (h : splitExact (lenOf lo hi).toNat body = some (payload, rest)) :
    decodeWireFrame (lo :: hi :: model :: cmd :: p0 :: p1 :: chk :: body)
      = .ok (wireOperation model cmd p0 p1 chk payload, rest) := by
  simp only [decodeWireFrame, h, wireOperation]
  split <;> rfl

/-- Log entry 5: a listing that ends inside the payload. -/
theorem decodeWireFrame_of_short (h : splitExact (lenOf lo hi).toNat body = none) :
    decodeWireFrame (lo :: hi :: model :: cmd :: p0 :: p1 :: chk :: body)
      = .error .truncated := by
  simp only [decodeWireFrame, h]

end header

section accepted

variable {bs : List Byte} {i : Instr} {rest : List Byte}

theorem canonical_of_decodeWireFrame (h : decodeWireFrame bs = .ok (i, rest)) :
    i.listable = true ∧ Config.magic :: bs = encode i ++ rest := by
  rcases bs with _ | ⟨lo, _ | ⟨hi, _ | ⟨model, _ | ⟨cmd, _ | ⟨p0, _ | ⟨p1, _ | ⟨chk, body⟩⟩⟩⟩⟩⟩⟩
  case cons.cons.cons.cons.cons.cons.cons =>
    rcases hsplit : splitExact (lenOf lo hi).toNat body with _ | ⟨payload, tail⟩
    · rw [decodeWireFrame_of_short _ _ _ _ _ hsplit] at h
      cases h
    · rw [decodeWireFrame_of_split _ _ _ _ _ hsplit] at h
      cases h
      obtain ⟨hlen, rfl, rfl, rfl⟩ := splitExact_lenOf_iff.mp hsplit
      obtain ⟨hlistable, hbytes⟩ := wireOperation_canonical (model := model) (cmd := cmd)
        (p0 := p0) (p1 := p1) (chk := chk) hlen
      exact ⟨hlistable, by rw [hbytes]; rfl⟩
  all_goals cases h

theorem canonical_of_decodeRxPush (h : decodeRxPush bs = .ok (i, rest)) :
    i.listable = true ∧ 1 :: bs = encode i ++ rest := by
  unfold decodeRxPush at h
  split at h <;> cases h
  exact ⟨rfl, rfl⟩

theorem canonical_of_decodeEncode (h : decodeEncode bs = .ok (i, rest)) :
    i.listable = true ∧ 2 :: bs = encode i ++ rest := by
  unfold decodeEncode at h
  split at h
  next =>
    split at h <;> cases h
    next hsplit =>
      obtain ⟨hlen, rfl, rfl, rfl⟩ := splitExact_lenOf_iff.mp hsplit
      exact ⟨by simpa [Instr.listable, Instr.wf, Instr.corruptFrame, fitsLength], rfl⟩
  next => cases h

theorem canonical_of_decodeXorFold (h : decodeXorFold bs = .ok (i, rest)) :
    i.listable = true ∧ 3 :: bs = encode i ++ rest := by
  unfold decodeXorFold at h
  split at h
  next =>
    split at h <;> cases h
    next hsplit =>
      obtain ⟨hlen, rfl, rfl, rfl⟩ := splitExact_lenOf_iff.mp hsplit
      exact ⟨by simpa [Instr.listable, Instr.wf, Instr.corruptFrame, fitsLength], rfl⟩
  next => cases h

theorem canonical_of_decodeTryDecodeOne (h : decodeTryDecodeOne bs = .ok (i, rest)) :
    i.listable = true ∧ 4 :: bs = encode i ++ rest := by
  unfold decodeTryDecodeOne at h
  split at h
  next =>
    split at h <;> cases h
    next hsplit =>
      obtain ⟨hlen, rfl, rfl, rfl, rfl⟩ := splitExact_len24_iff.mp hsplit
      exact ⟨by simpa [Instr.listable, Instr.wf, Instr.corruptFrame] using hlen, rfl⟩
  next => cases h

/-- Rules R71, R75 and R88: what the decoder accepts can be listed, and is written in one way. -/
theorem canonical_of_decode (h : decode bs = .ok (i, rest)) :
    i.listable = true ∧ bs = encode i ++ rest := by
  rcases bs with _ | ⟨op, bs⟩
  · cases h
  rw [decode] at h
  split_ifs at h with hmagic h0 h1 h2 h3 h4 h5 h6 h7
  · exact hmagic ▸ canonical_of_decodeWireFrame h
  · cases h
    exact ⟨rfl, by rw [h0]; rfl⟩
  · exact h1 ▸ canonical_of_decodeRxPush h
  · exact h2 ▸ canonical_of_decodeEncode h
  · exact h3 ▸ canonical_of_decodeXorFold h
  · exact h4 ▸ canonical_of_decodeTryDecodeOne h
  · cases h
    exact ⟨rfl, by rw [h5]; rfl⟩
  · cases h
    exact ⟨rfl, by rw [h6]; rfl⟩

end accepted

/-! ### Reading an encoding back -/

section readback

variable {payload : List Byte} (rest : List Byte)

/-- Rule R60: a listed wire frame is read back as its operation. -/
theorem decode_wireBytes (hlen : payload.length ≤ 65535) (model cmd p0 p1 chk : Byte) :
    decode (wireBytes (payloadLen payload) model cmd p0 p1 chk payload ++ rest)
      = .ok (wireOperation model cmd p0 p1 chk payload, rest) := by
  have hbody : decode (wireBytes (payloadLen payload) model cmd p0 p1 chk payload ++ rest)
      = decodeWireFrame (lenLo (payloadLen payload) :: lenHi (payloadLen payload) :: model :: cmd ::
          p0 :: p1 :: chk :: (payload ++ rest)) := rfl
  rw [hbody, decodeWireFrame_of_split _ _ _ _ _
    (splitExact_lenOf_iff.mpr ⟨hlen, rfl, rfl, rfl⟩)]

/-- Rule R88: ENCODE's listing form. -/
theorem decode_encode_encode (hlen : payload.length ≤ 65535) (model cmd p0 p1 : Byte) :
    decode (encode (.encode model cmd p0 p1 payload) ++ rest)
      = .ok (.encode model cmd p0 p1 payload, rest) := by
  have hbody : decode (encode (.encode model cmd p0 p1 payload) ++ rest)
      = decodeEncode (model :: cmd :: p0 :: p1 :: lenLo (payloadLen payload) ::
          lenHi (payloadLen payload) :: (payload ++ rest)) := rfl
  rw [hbody, decodeEncode, splitExact_lenOf_iff.mpr ⟨hlen, rfl, rfl, rfl⟩]

/-- Log entry 6: XOR_FOLD's listing form. -/
theorem decode_encode_xorFold (hlen : payload.length ≤ 65535) :
    decode (encode (.xorFold payload) ++ rest) = .ok (.xorFold payload, rest) := by
  have hbody : decode (encode (.xorFold payload) ++ rest)
      = decodeXorFold (lenLo (payloadLen payload) :: lenHi (payloadLen payload) ::
          (payload ++ rest)) := rfl
  rw [hbody, decodeXorFold, splitExact_lenOf_iff.mpr ⟨hlen, rfl, rfl, rfl⟩]

/-- Log entry 6: TRY_DECODE_ONE's listing form. -/
theorem decode_encode_tryDecodeOne (hlen : payload.length < 2 ^ 24) :
    decode (encode (.tryDecodeOne payload) ++ rest) = .ok (.tryDecodeOne payload, rest) := by
  have hbody : decode (encode (.tryDecodeOne payload) ++ rest)
      = decodeTryDecodeOne (BitVec.ofNat 8 payload.length :: BitVec.ofNat 8 (payload.length / 256) ::
          BitVec.ofNat 8 (payload.length / 65536) :: (payload ++ rest)) := rfl
  rw [hbody, decodeTryDecodeOne, splitExact_len24_iff.mpr ⟨hlen, rfl, rfl, rfl, rfl⟩]

end readback

/-- Rules R60 and R88: whatever follows it, an encoding is read back as the operation it writes. -/
theorem decode_encode {i : Instr} (h : i.listable = true) (rest : List Byte) :
    decode (encode i ++ rest) = .ok (i, rest) := by
  cases i with
  | frame model cmd p0 p1 chk payload =>
    have hlen := of_decide_eq_true (Instr.fitsLength_of_listable_frame h)
    rw [encode, decode_wireBytes rest hlen, wireOperation_frame h]
  | streamEnable p0 p1 => exact decode_wireBytes (payload := [0x00]) rest (by decide) ..
  | streamDisable p0 p1 => exact decode_wireBytes (payload := [0x01]) rest (by decide) ..
  | identityRequest p0 p1 => exact decode_wireBytes (payload := [0x00]) rest (by decide) ..
  | telemetryReport p0 p1 chk payload =>
    rw [Instr.listable_eq rfl] at h
    have hlen := (Instr.wf_telemetryReport h).1
    rw [encode, decode_wireBytes rest (by omega), wireOperation_telemetryReport h]
  | identityResponse cmd p0 p1 chk payload =>
    rw [Instr.listable_eq rfl] at h
    have hfits := Instr.fitsLength_of_wf_identityResponse h
    rw [encode, decode_wireBytes rest (of_decide_eq_true hfits), wireOperation_identityResponse h]
  | encode model cmd p0 p1 payload =>
    rw [Instr.listable_eq rfl] at h
    exact decode_encode_encode rest (of_decide_eq_true h) model cmd p0 p1
  | xorFold bytes =>
    rw [Instr.listable_eq rfl] at h
    exact decode_encode_xorFold rest (of_decide_eq_true h)
  | tryDecodeOne bytes =>
    rw [Instr.listable_eq rfl] at h
    exact decode_encode_tryDecodeOne rest (of_decide_eq_true h)
  | reset | rxPush | decodeStep | drain => rfl

/-- Settles O7: each listing form is split where its length field says. -/
theorem decodeReadsEveryEncoding : Obligations.DecodeReadsEveryEncoding :=
  fun _ rest h => decode_encode h rest

/-- Settles O8: each part of the decoder takes one encoding. -/
theorem decodedOperationsAreCanonical : Obligations.DecodedOperationsAreCanonical := by
  intro bs i rest h
  obtain ⟨hlistable, hbytes⟩ := canonical_of_decode h
  exact ⟨by rwa [← Bool.or_eq_true], hbytes⟩

/-- Settles O6: each word is its operation's encoding and what follows it. -/
theorem specWordsDecode : Obligations.SpecWordsDecode :=
  ⟨decode_encode (i := .streamEnable 0 0) rfl [], decode_encode (i := .streamDisable 0 0) rfl [],
    decode_encode (i := .identityRequest 0 0) rfl [],
    decode_encode (i := .telemetryReport 0 0 0xDC [0x00, 0x00, 0x27, 0x10, 0x00, 0x00, 0x03, 0xE8])
      (by decide) [],
    decode_encode (i := .frame 0x01 0x02 0x03 0x04 0x00 []) (by decide) [],
    decode_encode (i := .encode 0x04 0x05 0x00 0x00 [0x00]) (by decide) [0x01, 0xDA],
    decode_encode (i := .rxPush 0xDA) rfl [], decode_encode (i := .reset) rfl []⟩

/-! ### One step over the listing (rules R71 and R185) -/

section step

variable {s : State} {i : Instr} {rest : List Byte}

theorem listing_ne_nil_of_decode (h : decode s.listing = .ok (i, rest)) : s.listing ≠ [] := by
  intro hnil
  rw [hnil] at h
  cases h

/-- Log entry 3: a step performs what is listed first, if its invoker may. -/
theorem step_of_decode (h : decode s.listing = .ok (i, rest)) :
    step s = if mayInvoke s.invoker i then exec i { s with listing := rest }
      else .refused .internalOperation := by
  rcases step_cases s with ⟨hnil, _⟩ | ⟨j, r, _, hok, hmay, e⟩ | ⟨j, r, _, hok, hmay, e⟩ |
    ⟨_, _, herr, _⟩
  · exact absurd hnil (listing_ne_nil_of_decode h)
  · rw [h] at hok
    cases hok
    rw [e, if_pos hmay]
  · rw [h] at hok
    cases hok
    rw [e, hmay]
    rfl
  · rw [h] at herr
    cases herr

/-- Rule R71: the internal operations are the four procedures. -/
theorem isInternal_iff (i : Instr) : isInternal i = true ↔
    (∃ bytes, i = .xorFold bytes) ∨ (∃ bytes, i = .tryDecodeOne bytes) ∨ i = .decodeStep ∨
      i = .drain := by
  cases i <;> simp [isInternal]

end step

/-- Settles O3: the invoker decides, and to the environment the four procedures are closed. -/
theorem stepPerformsTheListedOperation : Obligations.StepPerformsTheListedOperation := by
  intro s i rest h
  have hstep := step_of_decode h
  refine ⟨fun henv hinternal => ?_, fun henv hfold htry honce hdrain => ?_, fun htest => ?_⟩
  · rw [hstep, henv, mayInvoke_environment, (isInternal_iff i).mpr hinternal]
    rfl
  · have hexternal : isInternal i = false := by
      rw [← Bool.not_eq_true, isInternal_iff]
      rintro (⟨bytes, hi⟩ | ⟨bytes, hi⟩ | hi | hi)
      exacts [hfold bytes hi, htry bytes hi, honce hi, hdrain hi]
    rw [hstep, henv, mayInvoke_environment, hexternal]
    rfl
  · rw [hstep, htest, mayInvoke_procedureTest, if_pos rfl]

/-- Settles O4: the block is idle. -/
theorem idleStepHoldsTheState : Obligations.IdleStepHoldsTheState := by
  intro s hnil
  rcases step_cases s with ⟨_, e⟩ | ⟨_, _, hne, _⟩ | ⟨_, _, hne, _⟩ | ⟨_, hne, _⟩
  · exact e
  all_goals exact absurd hnil hne

end Sys2Proof.Machine
end

section
/-! PROOFS. What an operation reads and what it leaves alone (spec/10_state.md sections 3 and 5): the
buffer and the capacity decide what it does, and the rest of the state only stands before what it
adds. -/

namespace Sys2Proof.Machine

/-! ### A state without a past, and with one (rules R19 and R30) -/

/-- What an operation may read of a state: the buffer and the capacity, as if nothing had been
emitted, sent, listed or shown. -/
def State.bare (s : State) : State := { State.resetWith s.rbCap with rb := s.rb }

/-- The state `s` with what `past` recorded before it: older emissions and sent bytes, the listing,
the invoker, and the shown result where `s` shows none. -/
def State.withPast (s past : State) : State :=
  { s with
    rxOut := past.rxOut ++ s.rxOut, tx := past.tx ++ s.tx, listing := past.listing,
    returned := s.returned.or past.returned, invoker := past.invoker }

theorem State.bare_withPast (s : State) : s.bare.withPast s = s := by
  simp [State.bare, State.withPast, State.resetWith]

theorem State.bare_congr {s u : State} (hrb : s.rb = u.rb) (hcap : s.rbCap = u.rbCap) :
    s.bare = u.bare := by
  rw [State.bare, State.bare, hrb, hcap]

section withPast

variable (s past : State)

@[simp] theorem State.withPast_rb : (s.withPast past).rb = s.rb := rfl
@[simp] theorem State.withPast_rbCap : (s.withPast past).rbCap = s.rbCap := rfl
@[simp] theorem State.withPast_rxOut : (s.withPast past).rxOut = past.rxOut ++ s.rxOut := rfl
@[simp] theorem State.withPast_tx : (s.withPast past).tx = past.tx ++ s.tx := rfl

theorem clearRb_withPast : (s.withPast past).clearRb = s.clearRb.withPast past := rfl

theorem appendByte_withPast (b : Byte) :
    (s.withPast past).appendByte b = (s.appendByte b).withPast past := rfl

theorem consume_withPast (k : Nat) :
    (s.withPast past).consume k = (s.consume k).withPast past := rfl

theorem setReturned_withPast (r : ProcResult) :
    (s.withPast past).setReturned r = (s.setReturned r).withPast past := rfl

theorem emitFo_withPast (f : Frame) :
    (s.withPast past).emitFo f = (s.emitFo f).withPast past := by
  simp [State.withPast, State.emitFo]

theorem emitDiag_withPast (e : DiagEvent) :
    (s.withPast past).emitDiag e = (s.emitDiag e).withPast past := by
  simp [State.withPast, State.emitDiag]

theorem emitTx_withPast (bs : List Byte) :
    (s.withPast past).emitTx bs = (s.emitTx bs).withPast past := by
  simp [State.withPast, State.emitTx]

/-! ### The past passes through every operation (rule R30) -/

/-- Rule R140: the decoder's answer depends on the buffer, and its four effects only add. -/
theorem applyDecode_withPast :
    applyDecode (s.withPast past) = ((applyDecode s).1, (applyDecode s).2.withPast past) := by
  rcases applyDecode_cases s with ⟨hc, e⟩ | ⟨hc, e⟩ | ⟨hc, e⟩ | ⟨f, n, hc, e⟩ <;> rw [e]
  · rw [applyDecode_of_drained (s := s.withPast past) hc]
  · rw [applyDecode_of_badMagic (s := s.withPast past) hc, emitDiag_withPast, consume_withPast]
    rfl
  · rw [applyDecode_of_badChecksum (s := s.withPast past) hc, emitDiag_withPast,
      consume_withPast]
    rfl
  · rw [applyDecode_of_decoded (s := s.withPast past) hc, consume_withPast, emitFo_withPast]

theorem drainAll_withPast : drainAll (s.withPast past) = (drainAll s).withPast past := by
  induction s using drain_induction with
  | done s h => rw [drainAll_of_done h, drainAll_of_done (s := s.withPast past) h]
  | more s t h ih =>
    have hpast : applyDecode (s.withPast past) = (.more, t.withPast past) := by
      rw [applyDecode_withPast, h]
    rw [drainAll_of_more h, drainAll_of_more hpast, ih]

theorem makeRoom_withPast : makeRoom (s.withPast past) = (makeRoom s).withPast past := by
  rcases makeRoom_cases s with ⟨hfull, e⟩ | ⟨hroom, e⟩ <;> rw [e]
  · rw [← clearRb_withPast, ← emitDiag_withPast]
    exact if_pos hfull
  · exact if_neg hroom

theorem receiveByte_withPast (b : Byte) :
    receiveByte b (s.withPast past) = (receiveByte b s).withPast past := by
  simp only [receiveByte, makeRoom_withPast, appendByte_withPast, drainAll_withPast]

theorem receiveChunk_withPast (bs : List Byte) :
    receiveChunk bs (s.withPast past) = (receiveChunk bs s).withPast past := by
  induction bs generalizing s with
  | nil => rfl
  | cons b bs ih => rw [receiveChunk_cons, receiveChunk_cons, receiveByte_withPast, ih]

end withPast

/-- The outcome with its next state, where there is one, changed by `f`. -/
def mapNext (f : State → State) :
    Host.Outcome State Fault Refusal → Host.Outcome State Fault Refusal
  | .next t => .next (f t)
  | .fault r => .fault r
  | .refused r => .refused r

theorem eq_next_of_mapNext {f : State → State} {o : Host.Outcome State Fault Refusal} {t : State}
    (h : mapNext f o = .next t) : ∃ t', o = .next t' ∧ t = f t' := by
  cases o with
  | next t' =>
    cases h
    exact ⟨t', rfl, rfl⟩
  | fault | refused => cases h

theorem encodeAndSend_withPast (model cmd p0 p1 : Byte) (payload : List Byte) (s past : State) :
    encodeAndSend model cmd p0 p1 payload (s.withPast past)
      = mapNext (·.withPast past) (encodeAndSend model cmd p0 p1 payload s) := by
  unfold encodeAndSend
  split
  · rfl
  · rw [emitTx_withPast, mapNext]

theorem receiveFrame_withPast (model cmd p0 p1 chk : Byte) (payload : List Byte) (s past : State) :
    receiveFrame model cmd p0 p1 chk payload (s.withPast past)
      = mapNext (·.withPast past) (receiveFrame model cmd p0 p1 chk payload s) := by
  unfold receiveFrame
  split
  · rfl
  · rw [receiveChunk_withPast, mapNext]

/-- Rule R30: an operation does the same whatever was recorded before. -/
theorem exec_withPast (i : Instr) (s past : State) :
    exec i (s.withPast past) = mapNext (·.withPast past) (exec i s) := by
  cases i with
  | streamEnable =>
    rw [exec_streamEnable, exec_streamEnable, encodeAndSend_withPast]
  | streamDisable =>
    rw [exec_streamDisable, exec_streamDisable, encodeAndSend_withPast]
  | identityRequest =>
    rw [exec_identityRequest, exec_identityRequest, encodeAndSend_withPast]
  | encode => exact encodeAndSend_withPast ..
  | frame | telemetryReport | identityResponse => exact receiveFrame_withPast ..
  | reset | xorFold | tryDecodeOne => rfl
  | rxPush b => exact congrArg Host.Outcome.next (receiveByte_withPast s past b)
  | drain => exact congrArg Host.Outcome.next (drainAll_withPast s past)
  | decodeStep =>
    rw [exec_decodeStep, exec_decodeStep, applyDecode_withPast, setReturned_withPast, mapNext]

/-- Rule R30: so what an operation does is decided in the bare state. -/
theorem exec_eq_bare (i : Instr) (s : State) :
    exec i s = mapNext (·.withPast s) (exec i s.bare) := by
  rw [← exec_withPast, State.bare_withPast]

theorem exists_bare_of_exec {i : Instr} {s t : State} (h : exec i s = .next t) :
    ∃ t', exec i s.bare = .next t' ∧ t = t'.withPast s :=
  eq_next_of_mapNext ((exec_eq_bare i s).symm.trans h)

/-- Settles O56: the two states have the same bare state, and each stands before what it adds. -/
theorem historiesAreNeverRead : Obligations.HistoriesAreNeverRead := by
  intro i s u t hrb hcap h
  obtain ⟨t', hbare, rfl⟩ := exists_bare_of_exec h
  refine ⟨t'.withPast u, t'.rxOut, t'.tx, ?_, rfl, rfl, rfl, rfl, rfl⟩
  rw [exec_eq_bare, ← State.bare_congr hrb hcap, hbare, mapNext]

/-! ### What each operation leaves unchanged (rule R35) -/

section unchanged

variable {i : Instr} {s t : State}

/-- Rules R23, R30 and R35: what no operation touches, and what it only adds to. -/
theorem exec_frame (h : exec i s = .next t) :
    t.listing = s.listing ∧ t.invoker = s.invoker ∧ t.rbCap = s.rbCap ∧
      s.rxOut <+: t.rxOut ∧ s.tx <+: t.tx := by
  have hcap := (exec_bufferEffect h).1
  obtain ⟨t', _, rfl⟩ := exists_bare_of_exec h
  exact ⟨rfl, rfl, hcap, List.prefix_append _ _, List.prefix_append _ _⟩

/-- Rules R29 and R93: a request that is sent leaves the receive path and the shown result. -/
theorem encodeAndSend_unchanged {model cmd p0 p1 : Byte} {payload : List Byte}
    (h : encodeAndSend model cmd p0 p1 payload s = .next t) :
    t.rb = s.rb ∧ t.rxOut = s.rxOut ∧ t.returned = s.returned := by
  rcases encodeAndSend_cases model cmd p0 p1 payload s with ⟨_, e⟩ | ⟨_, e⟩ <;> rw [e] at h <;>
    cases h
  exact ⟨rfl, rfl, rfl⟩

/-- Rule R145: a received frame leaves the bytes sent and the shown result. -/
theorem receiveFrame_unchanged {model cmd p0 p1 chk : Byte} {payload : List Byte}
    (h : receiveFrame model cmd p0 p1 chk payload s = .next t) :
    t.tx = s.tx ∧ t.returned = s.returned := by
  rcases receiveFrame_cases model cmd p0 p1 chk payload s with ⟨_, e⟩ | ⟨_, e⟩ <;> rw [e] at h <;>
    cases h
  obtain ⟨_, htx, _, hreturned, _⟩ := receiveChunk_frame
    (wireBytes (payloadLen payload) model cmd p0 p1 chk payload) s
  exact ⟨htx, hreturned⟩

end unchanged

/-- Settles O55: the general part, and each operation's own row of the table. -/
theorem whatEachOperationLeavesUnchanged : Obligations.WhatEachOperationLeavesUnchanged := by
  intro i s t h
  obtain ⟨hlisting, hinvoker, hcap, hrx, htx⟩ := exec_frame h
  refine ⟨hlisting, hinvoker, hcap, hrx, htx, ?_⟩
  cases i with
  | streamEnable => exact encodeAndSend_unchanged (exec_streamEnable .. ▸ h)
  | streamDisable => exact encodeAndSend_unchanged (exec_streamDisable .. ▸ h)
  | identityRequest => exact encodeAndSend_unchanged (exec_identityRequest .. ▸ h)
  | encode => exact encodeAndSend_unchanged h
  | frame | telemetryReport | identityResponse => exact receiveFrame_unchanged h
  | xorFold | tryDecodeOne =>
    cases h
    exact ⟨rfl, rfl, rfl⟩
  | reset =>
    cases h
    exact ⟨rfl, rfl, rfl, rfl⟩
  | rxPush b =>
    cases h
    obtain ⟨_, hsent, _, hreturned, _⟩ := receiveByte_frame b s
    exact ⟨hsent, hreturned⟩
  | drain =>
    cases h
    obtain ⟨_, _, hsent, _, hreturned, _⟩ := drainAll_frame s
    exact ⟨hsent, hreturned⟩
  | decodeStep =>
    cases h
    exact (applyDecode_frame s).2.1

/-! ### Completion (rules R162 and R170) -/

theorem encodeAndSend_completes {payload : List Byte} (h : fitsLength payload = true)
    (model cmd p0 p1 : Byte) (s : State) :
    ∃ t, encodeAndSend model cmd p0 p1 payload s = .next t :=
  ⟨_, exec_encode_of_le (of_decide_eq_true h) model cmd p0 p1 s⟩

theorem receiveFrame_completes {payload : List Byte} (h : fitsLength payload = true)
    (model cmd p0 p1 chk : Byte) (s : State) :
    ∃ t, receiveFrame model cmd p0 p1 chk payload s = .next t := by
  have hle : payload.length ≤ 65535 := of_decide_eq_true h
  rcases receiveFrame_cases model cmd p0 p1 chk payload s with ⟨hlt, _⟩ | ⟨_, e⟩
  · omega
  · exact ⟨_, e⟩

/-- Rule R162: no state keeps an operation that can be listed from completing. -/
theorem exec_completes {i : Instr} (h : i.listable = true) (s : State) :
    ∃ t, exec i s = .next t := by
  cases i with
  | streamEnable => exact encodeAndSend_completes (payload := [0x00]) rfl ..
  | streamDisable => exact encodeAndSend_completes (payload := [0x01]) rfl ..
  | identityRequest => exact encodeAndSend_completes (payload := []) rfl ..
  | encode =>
    rw [Instr.listable_eq rfl] at h
    exact encodeAndSend_completes h ..
  | frame => exact receiveFrame_completes (Instr.fitsLength_of_listable_frame h) ..
  | telemetryReport p0 p1 chk payload =>
    rw [Instr.listable_eq rfl] at h
    obtain ⟨hlen, _⟩ := Instr.wf_telemetryReport h
    have hfits : fitsLength payload = true := decide_eq_true (by rw [hlen]; decide)
    exact receiveFrame_completes hfits ..
  | identityResponse =>
    rw [Instr.listable_eq rfl] at h
    exact receiveFrame_completes (Instr.fitsLength_of_wf_identityResponse h) ..
  | reset | rxPush | xorFold | tryDecodeOne | decodeStep | drain => exact ⟨_, rfl⟩

/-- Settles O59: the operands alone decide on completion; and there is no fault to answer. -/
theorem everyOperationCompletes : Obligations.EveryOperationCompletes :=
  ⟨fun _ s h => exec_completes h s, fun _ r => nomatch r⟩

/-! ### A run over a listing (rule R201) -/

/-- Log entry 3: an operation does the same whatever else is listed. -/
theorem exec_relist {i : Instr} {s t : State} (h : exec i s = .next t) (rest : List Byte) :
    exec i { s with listing := rest } = .next { t with listing := rest } := by
  obtain ⟨t', hbare, rfl⟩ := exists_bare_of_exec h
  have hsame : State.bare { s with listing := rest } = s.bare := rfl
  rw [exec_eq_bare, hsame, hbare]
  rfl

/-- Log entries 3 and 4: a step over a listing performs its first operation and leaves the others
listed. -/
theorem step_listing_cons {i : Instr} {s t : State} (hlistable : i.listable = true)
    (hmay : mayInvoke s.invoker i = true) (h : exec i s = .next t) (is : List Instr) :
    step { s with listing := listingOf (i :: is) } = .next { t with listing := listingOf is } := by
  have hfront : decode (State.listing { s with listing := listingOf (i :: is) })
      = .ok (i, listingOf is) := decode_encode hlistable (listingOf is)
  rw [step_of_decode hfront, if_pos hmay]
  exact exec_relist h (listingOf is)

/-- Rule R201: the run over a listing, from a state whose own listing has been performed. -/
theorem run_listing {ops : List Instr} {s : State} (hnil : s.listing = [])
    (hlistable : ∀ i ∈ ops, i.listable = true) (hmay : ∀ i ∈ ops, mayInvoke s.invoker i = true) :
    Host.Core.run Sys2Proof.core ops.length { s with listing := listingOf ops }
      = perform ops s := by
  induction ops generalizing s with
  | nil =>
    have hsame : { s with listing := [] } = s := by rw [← hnil]
    exact congrArg Host.Outcome.next hsame
  | cons i is ih =>
    obtain ⟨hi, his⟩ := List.forall_mem_cons.mp hlistable
    obtain ⟨hmayi, hmayis⟩ := List.forall_mem_cons.mp hmay
    obtain ⟨t, ht⟩ := exec_completes hi s
    obtain ⟨hlisting, hinvoker, _⟩ := exec_frame ht
    rw [List.length_cons, core_run_succ_of_next _ (step_listing_cons hi hmayi ht is),
      perform_cons_of_next ht]
    exact ih (hlisting.trans hnil) his (hinvoker ▸ hmayis)

/-- Settles O11: each step takes one encoding off the listing. -/
theorem listingRunsItsOperations : Obligations.ListingRunsItsOperations :=
  fun _ s hlistable hmay => run_listing (s := { s with listing := [] }) rfl hlistable hmay

end Sys2Proof.Machine
end

section
/-! PROOFS. Received frames and received streams (spec/42_reassembly.md sections 3 to 5,
spec/41_decoder.md section 1 and spec/70_reset_and_hazards.md section 2). -/

namespace Sys2Proof.Machine

/-! ### Received rows push their wire bytes (rules R60, R84 and R145) -/

section received

variable {payload : List Byte} (model cmd p0 p1 chk : Byte) (s : State)

/-- Rule R145: a countable received frame is the RX_PUSHes of its wire bytes. -/
theorem receiveFrame_eq_perform (h : payload.length ≤ 65535) :
    receiveFrame model cmd p0 p1 chk payload s
      = perform ((wireBytes (payloadLen payload) model cmd p0 p1 chk payload).map .rxPush) s := by
  rcases receiveFrame_cases model cmd p0 p1 chk payload s with ⟨hlt, _⟩ | ⟨_, e⟩
  · omega
  · rw [e, perform_map_rxPush]

/-- Log entry 15: a longer one is refused. -/
theorem receiveFrame_refused (h : 65535 < payload.length) :
    receiveFrame model cmd p0 p1 chk payload s = .refused .payloadTooLong := by
  rcases receiveFrame_cases model cmd p0 p1 chk payload s with ⟨_, e⟩ | ⟨hle, _⟩
  · exact e
  · omega

end received

/-- Settles O41: the three rows differ in the header fields that they fix. -/
theorem receivedRowsPushTheirBytes : Obligations.ReceivedRowsPushTheirBytes :=
  fun s model cmd p0 p1 chk _ =>
    ⟨fun hle => ⟨receiveFrame_eq_perform model cmd p0 p1 chk s hle,
        receiveFrame_eq_perform 0x04 0x05 p0 p1 chk s hle,
        receiveFrame_eq_perform 0x01 cmd p0 p1 chk s hle⟩,
      fun hlt => ⟨receiveFrame_refused model cmd p0 p1 chk s hlt,
        receiveFrame_refused 0x04 0x05 p0 p1 chk s hlt,
        receiveFrame_refused 0x01 cmd p0 p1 chk s hlt⟩⟩

/-! ### Frames on an empty buffer (rules R115 and R144) -/

section on_empty

variable {s : State} {payload : List Byte}

/-- Rule R144: a frame that arrives on an empty buffer with room for it is drained as a whole. -/
theorem receiveFrame_on_empty (hnil : s.rb = []) (hlen : payload.length ≤ 65535)
    (hcap : 8 + payload.length ≤ s.rbCap) (model cmd p0 p1 chk : Byte) :
    receiveFrame model cmd p0 p1 chk payload s = exec .drain { s with
      rb := wireBytes (payloadLen payload) model cmd p0 p1 chk payload } := by
  obtain ⟨_, _, hdrained⟩ := State.inv_of_rb_nil (by omega) hnil
  rw [receiveFrame_eq_perform _ _ _ _ _ s hlen, perform_rxPush_eq_drain hdrained
    (by rwa [hnil, List.length_nil, Nat.zero_add, wireBytes_length]), hnil, List.nil_append]

/-- Rule R115: a valid one is handed over, and leaves the buffer as empty as it was. -/
theorem receiveFrame_valid_on_empty (hnil : s.rb = []) (hlen : payload.length ≤ 65535)
    (hcap : 8 + payload.length ≤ s.rbCap) (model cmd p0 p1 : Byte) :
    receiveFrame model cmd p0 p1 (xorFold payload) payload s = .next { s with
      rxOut := s.rxOut ++ [.frame
        ⟨payloadLen payload, model, cmd, p0, p1, xorFold payload, payload⟩] } := by
  have hsound : Frame.Sound
      ⟨payloadLen payload, model, cmd, p0, p1, xorFold payload, payload⟩ :=
    ⟨(payloadLen_toNat hlen).symm, rfl⟩
  rw [receiveFrame_on_empty hnil hlen hcap]
  refine (exec_drain_of_whole_frame (s := { s with rb := _ }) (classify_wire hsound)).trans ?_
  rw [← hnil]

end on_empty

/-- Settles O42: each row's wire bytes are a valid frame on an empty buffer. -/
theorem receivedFramesAreHandedOver : Obligations.ReceivedFramesAreHandedOver := by
  intro s model cmd p0 p1 payload hnil hlen hcap
  refine ⟨receiveFrame_valid_on_empty hnil hlen hcap model cmd p0 p1, fun h8 => ?_,
    fun _ => receiveFrame_valid_on_empty hnil hlen hcap 0x01 cmd p0 p1⟩
  have hreport := receiveFrame_valid_on_empty hnil hlen hcap 0x04 0x05 p0 p1
  rwa [payloadLen_of_length (n := 8) h8] at hreport

/-- Rule R60: a wire frame without its magic byte. -/
theorem drop_one_wireBytes (model cmd p0 p1 chk : Byte) (payload : List Byte) :
    (wireBytes (payloadLen payload) model cmd p0 p1 chk payload).drop 1
      = [BitVec.ofNat 8 payload.length, BitVec.ofNat 8 (payload.length / 256),
          model, cmd, p0, p1, chk] ++ payload := by
  rw [← lenLo_payloadLen, ← lenHi_payloadLen]
  rfl

/-- Rule R114: a candidate with a wrong checksum is reported and loses its magic byte. -/
theorem exec_drain_corrupt {chk : Byte} {payload : List Byte} (hlen : payload.length ≤ 65535)
    (hchk : chk ≠ xorFold payload) (model cmd p0 p1 : Byte) (s : State) :
    exec .drain { s with rb := wireBytes (payloadLen payload) model cmd p0 p1 chk payload }
      = exec .drain { s with
        rb := (wireBytes (payloadLen payload) model cmd p0 p1 chk payload).drop 1,
        rxOut := s.rxOut ++ [.diag (.badChecksum chk (xorFold payload))] } := by
  have hcount := payloadLen_toNat hlen
  have hbad := classify_wireBytes_badChecksum hcount.symm hchk model cmd p0 p1 []
  have hdeclared := declaredLen_wireBytes (payloadLen payload) model cmd p0 p1 chk payload []
  have hslice := slice_wireBytes (payloadLen payload) model cmd p0 p1 chk payload []
  rw [List.append_nil] at hbad hdeclared hslice
  rw [exec_drain_of_more (applyDecode_of_badChecksum
    (s := { s with rb := wireBytes (payloadLen payload) model cmd p0 p1 chk payload }) hbad),
    hdeclared, hcount, hslice]
  rfl

/-- Settles O60: the frame is drained as a whole, which begins with its report. -/
theorem corruptFramesAreRecovered : Obligations.CorruptFramesAreRecovered := by
  intro s model cmd p0 p1 chk payload hnil hlen hcap hchk
  have hdrain : exec (.frame model cmd p0 p1 chk payload) s = _ :=
    receiveFrame_on_empty hnil hlen hcap model cmd p0 p1 chk
  rw [exec_drain_corrupt hlen hchk, drop_one_wireBytes] at hdrain
  exact ⟨⟨_, hdrain.trans (exec_drain _)⟩, hdrain⟩

/-! ### Frames, noise and stalls at the head (rules R119, R144 and R195) -/

/-- Settles O45: the rest of the bytes completes the waiting frame. -/
theorem reachedFrameIsCompleted : Obligations.ReachedFrameIsCompleted :=
  fun _ _ _ hsound hcap hk hrb => perform_rxPush_rest_of_wire hsound hcap hk hrb

/-- Settles O46: each byte meets the buffer as empty as the one before. -/
theorem noiseIsDroppedByteByByte : Obligations.NoiseIsDroppedByteByByte :=
  fun _ _ hnil hcap hnoise => perform_rxPush_noise hnil hcap hnoise

/-- Rule R28: bytes behind an incomplete candidate leave it incomplete, since they do not reach its
header. -/
theorem drainedShape_append_of_incomplete {rb bs : List Byte} (hmagic : byteAt rb 0 = Config.magic)
    (h8 : 8 ≤ rb.length) (hlt : rb.length + bs.length < 8 + (declaredLen rb).toNat) :
    DrainedShape (rb ++ bs) := by
  refine .inr (.inr ?_)
  rw [List.length_append, declaredLen_append_left (by omega), byteAt_append_left _ _ _ (by omega)]
  exact ⟨hmagic, by omega, hlt⟩

/-- Settles O47: the buffer is drained before and after the bytes arrive. -/
theorem incompleteCandidateStalls : Obligations.IncompleteCandidateStalls := by
  intro s bs hmagic h8 hlt hcap
  have hafter : classify (s.rb ++ bs) = .needMoreData :=
    (classify_eq_needMoreData_iff _).mpr (drainedShape_append_of_incomplete hmagic h8 hlt)
  have hbefore : s.Drained :=
    (classify_eq_needMoreData_iff s.rb).mpr (.inr (.inr ⟨hmagic, h8, by omega⟩))
  rw [perform_rxPush_eq_drain hbefore hcap]
  exact exec_drain_of_drained hafter

/-! ### The emissions read the stream (rules R146 to R148) -/

/-- Two readings, the second from where the first ended. -/
theorem reads_append {outs more : List RxOut} {stream mid rb : List Byte}
    (h : reads outs stream mid) (hmore : reads more mid rb) : reads (outs ++ more) stream rb := by
  induction outs generalizing stream with
  | nil => rwa [show stream = mid from h]
  | cons o outs ih =>
    rcases o with f | (b | ⟨chk, fold⟩ | k)
    · obtain ⟨hc, hrest⟩ := h
      exact ⟨hc, ih hrest⟩
    · obtain ⟨hc, hb, hrest⟩ := h
      exact ⟨hc, hb, ih hrest⟩
    · obtain ⟨hc, hchk, hfold, hrest⟩ := h
      exact ⟨hc, hchk, hfold, ih hrest⟩
    · obtain ⟨hk, hrest⟩ := h
      exact ⟨hk, ih hrest⟩

/-- Rule R119: an answer that is final is the answer for the longer stream too. -/
theorem classify_append {s : List Byte} (hfinal : classify s ≠ .needMoreData) (bs : List Byte) :
    classify (s ++ bs) = classify s :=
  classify_of_examined_prefix hfinal ((List.take_prefix ..).trans (List.prefix_append ..))

/-- Rule R146: a reading is not changed by what arrives behind the bytes it has read. -/
theorem reads_extend {outs : List RxOut} {stream rb : List Byte} (h : reads outs stream rb)
    (bs : List Byte) : reads outs (stream ++ bs) (rb ++ bs) := by
  induction outs generalizing stream with
  | nil => exact congrArg (· ++ bs) h
  | cons o outs ih =>
    rcases o with f | (b | ⟨chk, fold⟩ | k)
    · obtain ⟨hc, hrest⟩ := h
      have hlong := ih hrest
      rw [← List.drop_append_of_le_length (classify_decoded_bounds hc).2] at hlong
      exact ⟨(classify_append (by simp [hc]) bs).trans hc, hlong⟩
    · obtain ⟨hc, hb, hrest⟩ := h
      have hpos := classify_resync_pos hc
      have hlong := ih hrest
      rw [← List.drop_append_of_le_length hpos] at hlong
      exact ⟨(classify_append (by simp [hc]) bs).trans hc,
        hb.trans (byteAt_append_left _ _ _ hpos).symm, hlong⟩
    · obtain ⟨hc, hchk, hfold, hrest⟩ := h
      obtain ⟨_, hlen, _⟩ := (classify_eq_badChecksum_iff stream).mp hc
      have hlong := ih hrest
      rw [← List.drop_append_of_le_length (classify_resync_pos hc)] at hlong
      refine ⟨(classify_append (by simp [hc]) bs).trans hc,
        hchk.trans (byteAt_append_left _ _ _ (by omega)).symm, ?_, hlong⟩
      rw [hfold, declaredLen_append_left (by omega), slice_append_left _ _ _ _ hlen]
    · obtain ⟨hk, hrest⟩ := h
      have hlong := ih hrest
      rw [← List.drop_append_of_le_length hk] at hlong
      exact ⟨by rw [List.length_append]; omega, hlong⟩

/-- Rule R115: a decoded frame takes as many bytes as it has on the wire. -/
theorem wire_length_of_decoded {s : List Byte} {f : Frame} {n : Nat}
    (h : classify s = .decoded f n) : f.wire.length = n := by
  obtain ⟨_, hlen, _, rfl, rfl⟩ := (classify_eq_decoded_iff s f n).mp h
  rw [Frame.wire, wireBytes_length, slice_length _ _ _ hlen]
  omega

/-- Rule R140: a step that answers MORE reads what it emits. -/
theorem applyDecode_more_reads {s t : State} (h : applyDecode s = (.more, t)) :
    ∃ o, t.rxOut = s.rxOut ++ [o] ∧ reads [o] s.rb t.rb := by
  rcases applyDecode_cases s with ⟨_, e⟩ | ⟨hc, e⟩ | ⟨hc, e⟩ | ⟨f, n, hc, e⟩ <;>
    rw [e] at h <;> cases h
  · exact ⟨_, rfl, hc, rfl, rfl⟩
  · exact ⟨_, rfl, hc, rfl, rfl, rfl⟩
  · have hn := wire_length_of_decoded hc
    exact ⟨_, rfl, hn ▸ hc, hn ▸ rfl⟩

/-- What an operation on the buffer emitted between `s` and `t` reads `stream`, and leaves `t`'s
buffer. -/
def EmitsReading (s t : State) (stream : List Byte) : Prop :=
  ∃ outs, t.rxOut = s.rxOut ++ outs ∧ reads outs stream t.rb

theorem EmitsReading.refl (s : State) : EmitsReading s s s.rb :=
  ⟨[], (List.append_nil _).symm, rfl⟩

/-- Rules R146 and R148: one reading after another, over the bytes that arrived in between. -/
theorem EmitsReading.trans {s t u : State} {stream bs : List Byte} (h : EmitsReading s t stream)
    (hnext : EmitsReading t u (t.rb ++ bs)) : EmitsReading s u (stream ++ bs) := by
  obtain ⟨outs, hout, hreads⟩ := h
  obtain ⟨more, hmore, hrest⟩ := hnext
  exact ⟨outs ++ more, by rw [hmore, hout, List.append_assoc],
    reads_append (reads_extend hreads bs) hrest⟩

/-- Rule R141: DRAIN reads the buffer. -/
theorem drainAll_emitsReading (s : State) : EmitsReading s (drainAll s) s.rb := by
  induction s using drain_induction with
  | done s h =>
    rw [drainAll_of_done h]
    exact .refl s
  | more s t h ih =>
    obtain ⟨o, hout, hreads⟩ := applyDecode_more_reads h
    rw [drainAll_of_more h, ← List.append_nil s.rb]
    exact .trans ⟨[o], hout, hreads⟩ (by rwa [List.append_nil])

/-- Rule R150: making room reads the discarded bytes. -/
theorem makeRoom_emitsReading (s : State) : EmitsReading s (makeRoom s) s.rb := by
  rcases makeRoom_cases s with ⟨hfull, e⟩ | ⟨_, e⟩ <;> rw [e]
  · exact ⟨[.diag (.overflow s.rbCap)], rfl, hfull.ge, List.drop_of_length_le hfull.le⟩
  · exact .refl s

theorem receiveByte_emitsReading (b : Byte) (s : State) :
    EmitsReading s (receiveByte b s) (s.rb ++ [b]) :=
  (makeRoom_emitsReading s).trans (drainAll_emitsReading ((makeRoom s).appendByte b))

/-- Rules R147 and R148: a chunk's emissions read the buffer and the chunk behind it. -/
theorem receiveChunk_emitsReading (bs : List Byte) (s : State) :
    EmitsReading s (receiveChunk bs s) (s.rb ++ bs) := by
  induction bs generalizing s with
  | nil =>
    rw [receiveChunk_nil, List.append_nil]
    exact .refl s
  | cons b bs ih =>
    rw [receiveChunk_cons, List.append_cons]
    exact (receiveByte_emitsReading b s).trans (ih (receiveByte b s))

/-- Settles O44: the reading of each byte's emissions, one after another. -/
theorem emissionsReadTheStream : Obligations.EmissionsReadTheStream := by
  intro bs s
  obtain ⟨outs, hout, hreads⟩ := receiveChunk_emitsReading bs s
  exact ⟨receiveChunk bs s, outs, perform_map_rxPush bs s, hout, hreads⟩

/-! ### Sound emissions (rules R14, R63, R74 and R115) -/

/-- Rules R14 and R74: every emission so far is sound. -/
def State.EmissionsSound (s : State) : Prop := ∀ o ∈ s.rxOut, o.Sound s.rbCap

section sound

variable {s t : State}

/-- Soundness speaks of the emissions and the capacity alone. -/
theorem State.EmissionsSound.congr (h : s.EmissionsSound) (hout : t.rxOut = s.rxOut)
    (hcap : t.rbCap = s.rbCap) : t.EmissionsSound := by
  rwa [State.EmissionsSound, hout, hcap]

/-- One more sound emission keeps soundness. -/
theorem State.EmissionsSound.snoc {o : RxOut} (h : s.EmissionsSound) (hnew : o.Sound s.rbCap)
    (hout : t.rxOut = s.rxOut ++ [o]) (hcap : t.rbCap = s.rbCap) : t.EmissionsSound := by
  rw [State.EmissionsSound, hout, hcap, List.forall_mem_append, List.forall_mem_singleton]
  exact ⟨h, hnew⟩

/-- Rules R63 and R115: the decoder answers only sound frames. -/
theorem sound_of_decoded {rb : List Byte} {f : Frame} {n : Nat} (h : classify rb = .decoded f n) :
    f.Sound := by
  obtain ⟨_, hlen, hchk, rfl, rfl⟩ := (classify_eq_decoded_iff rb f n).mp h
  exact ⟨(slice_length _ _ _ hlen).trans (Nat.add_sub_cancel_left ..), hchk⟩

theorem applyDecode_emissionsSound (h : s.EmissionsSound) :
    (applyDecode s).2.EmissionsSound := by
  rcases applyDecode_cases s with ⟨_, e⟩ | ⟨hc, e⟩ | ⟨hc, e⟩ | ⟨f, n, hc, e⟩ <;> rw [e]
  · exact h
  · exact h.snoc (o := .diag (.badMagic _)) ((classify_eq_badMagic_iff s.rb).mp hc).2 rfl rfl
  · obtain ⟨_, _, hchk⟩ := (classify_eq_badChecksum_iff s.rb).mp hc
    exact h.snoc (o := .diag (.badChecksum _ _)) hchk rfl rfl
  · exact h.snoc (o := .frame f) (sound_of_decoded hc) rfl rfl

theorem drainAll_emissionsSound (s : State) (h : s.EmissionsSound) :
    (drainAll s).EmissionsSound := by
  induction s using drain_induction with
  | done s hc => rwa [drainAll_of_done hc]
  | more s t hstep ih =>
    have hsound := applyDecode_emissionsSound h
    rw [hstep] at hsound
    rw [drainAll_of_more hstep]
    exact ih hsound

theorem makeRoom_emissionsSound (h : s.EmissionsSound) : (makeRoom s).EmissionsSound := by
  rcases makeRoom_cases s with ⟨_, e⟩ | ⟨_, e⟩ <;> rw [e]
  · exact h.snoc (o := .diag (.overflow s.rbCap)) rfl rfl rfl
  · exact h

theorem receiveByte_emissionsSound (b : Byte) (h : s.EmissionsSound) :
    (receiveByte b s).EmissionsSound :=
  drainAll_emissionsSound _ ((makeRoom_emissionsSound h).congr rfl rfl)

theorem receiveChunk_emissionsSound (bs : List Byte) (h : s.EmissionsSound) :
    (receiveChunk bs s).EmissionsSound := by
  induction bs generalizing s with
  | nil => exact h
  | cons b bs ih => exact ih (receiveByte_emissionsSound b h)

theorem encodeAndSend_emissionsSound {model cmd p0 p1 : Byte} {payload : List Byte}
    (h : s.EmissionsSound) (hsend : encodeAndSend model cmd p0 p1 payload s = .next t) :
    t.EmissionsSound :=
  h.congr (encodeAndSend_unchanged hsend).2.1 (encodeAndSend_bufferEffect hsend).1

theorem receiveFrame_emissionsSound {model cmd p0 p1 chk : Byte} {payload : List Byte}
    (h : s.EmissionsSound) (hreceive : receiveFrame model cmd p0 p1 chk payload s = .next t) :
    t.EmissionsSound := by
  rcases receiveFrame_cases model cmd p0 p1 chk payload s with ⟨_, e⟩ | ⟨_, e⟩ <;>
    rw [e] at hreceive <;> cases hreceive
  exact receiveChunk_emissionsSound _ h

theorem exec_emissionsSound {i : Instr} (h : s.EmissionsSound) (hexec : exec i s = .next t) :
    t.EmissionsSound := by
  cases i with
  | streamEnable => exact encodeAndSend_emissionsSound h (exec_streamEnable .. ▸ hexec)
  | streamDisable => exact encodeAndSend_emissionsSound h (exec_streamDisable .. ▸ hexec)
  | identityRequest => exact encodeAndSend_emissionsSound h (exec_identityRequest .. ▸ hexec)
  | encode => exact encodeAndSend_emissionsSound h hexec
  | frame | telemetryReport | identityResponse => exact receiveFrame_emissionsSound h hexec
  | reset | xorFold | tryDecodeOne =>
    cases hexec
    exact h
  | rxPush b =>
    cases hexec
    exact receiveByte_emissionsSound b h
  | decodeStep =>
    cases hexec
    exact (applyDecode_emissionsSound h).congr rfl rfl
  | drain =>
    cases hexec
    exact drainAll_emissionsSound s h

end sound

/-- Rule R74: the three codes. -/
theorem DiagEvent.code_cases (e : DiagEvent) : e.code = 1 ∨ e.code = 2 ∨ e.code = 3 := by
  cases e <;> simp [DiagEvent.code]

/-- Settles O54: a transition is idle, performs one operation, or gives no next state. -/
theorem everyStepKeepsEmissionsSound : Obligations.EveryStepKeepsEmissionsSound := by
  intro s t hs h
  refine ⟨?_, fun e _ => e.code_cases⟩
  rcases step_cases s with ⟨_, e⟩ | ⟨i, rest, _, _, _, e⟩ | ⟨_, _, _, _, _, e⟩ | ⟨_, _, _, e⟩ <;>
    rw [e] at h
  · cases h
    exact hs
  · exact exec_emissionsSound (s := { s with listing := rest }) hs h
  · cases h
  · cases h

end Sys2Proof.Machine
end

section
/-! PROOFS. The reset state, the shown results of the internal procedures, and the request rows with
any params (spec/10_state.md sections 4 and 5, spec/30_encoding.md section 4). -/

namespace Sys2Proof.Machine

/-- Settles O1: every start state is the reset state of some capacity. -/
theorem startOfRunIsEmpty : Obligations.StartOfRunIsEmpty := by
  rintro s (rfl | ⟨cap, rfl⟩)
  · exact ⟨rfl, rfl, rfl, rfl⟩
  · exact ⟨rfl, rfl, rfl, rfl⟩

/-- Settles O52: an empty buffer meets the invariant. -/
theorem resetStateIsDrained : Obligations.ResetStateIsDrained :=
  ⟨State.inv_of_rb_nil (by decide) rfl, rfl⟩

theorem exec_xorFold (bytes : List Byte) (s : State) :
    exec (.xorFold bytes) s = .next (s.setReturned (.fold (xorFold bytes))) := rfl

theorem exec_tryDecodeOne (bytes : List Byte) (s : State) :
    exec (.tryDecodeOne bytes) s = .next (s.setReturned (.decodeResult (classify bytes))) := rfl

/-- Settles O16: all that either procedure does is to show its result. -/
theorem pureProceduresOnlyShowTheirResult : Obligations.PureProceduresOnlyShowTheirResult :=
  ⟨exec_xorFold, exec_tryDecodeOne⟩

/-- Settles O36: DECODE_STEP shows its signal after its step. -/
theorem decodeStepShowsItsSignal : Obligations.DecodeStepShowsItsSignal :=
  fun s => ⟨_, exec_decodeStep s, State.setReturned_returned ..⟩

/-- Settles O23: each request is the ENCODE of a payload that is sent as one byte. -/
theorem requestRowsCarryAnyParams : Obligations.RequestRowsCarryAnyParams :=
  fun s p0 p1 =>
    ⟨exec_encode_singleton 0x04 0x05 p0 p1 s 0x00, exec_encode_singleton 0x04 0x05 p0 p1 s 0x01,
      (exec_encode_nil 0x01 0x04 p0 p1 s).trans (exec_encode_singleton 0x01 0x04 p0 p1 s 0x00)⟩

end Sys2Proof.Machine
end
